-- ==== Sys2Proof/Word.lean ====
section
/-! DEFINITION. The words of the block: the command and response word, a payload byte, a card's image. -/

namespace Sys2Proof

/-- The command word and the response data word: 32 bits (00_scope.md R8, 30_encoding.md R61, R69). -/
abbrev Word := BitVec 32

/-- One byte of an image or of the payload (00_scope.md R10). -/
abbrev Byte := BitVec 8

/-- One card's 3-byte register image (10_state.md R18). -/
abbrev Image := BitVec 24

end Sys2Proof
end

