-- ==== Sys2Proof/Syntax.lean ====
section
/-! DEFINITION. The commands: one constructor for each row of spec/opcode_table.json. -/

namespace Sys2Proof

/-- A host command (30_encoding.md R63). Operands are the unsigned integers of the fields
(30_encoding.md R62); a field the command does not use is no operand (30_encoding.md R64).
The ranges of the operands are `Instr.wf` (log entry 12). -/
inductive Instr where
  /-- `RESERVED_000` (42_stack_commands.md R112). -/
  | reserved000
  /-- `ADD_GROUP <count>` (42_stack_commands.md R107). -/
  | addGroup (count : Nat)
  /-- `CLEAR_ALL` (42_stack_commands.md R108). -/
  | clearAll
  /-- `CLEAR_GROUP <grp>`, 1-indexed (42_stack_commands.md R109). -/
  | clearGroup (grp : Nat)
  /-- `SET_CHANNEL <grp>, <crd>, <pos>, <neg>`, group and card 1-indexed (42_stack_commands.md R110). -/
  | setChannel (grp : Nat) (crd : Nat) (pos : Nat) (neg : Nat)
  /-- `READ_IMAGE <grp>, <crd>`, 1-indexed (42_stack_commands.md R111). -/
  | readImage (grp : Nat) (crd : Nat)
  /-- `RESERVED_110` (42_stack_commands.md R112). -/
  | reserved110
  /-- `RESERVED_111` (42_stack_commands.md R112). -/
  | reserved111
  deriving DecidableEq, Repr

end Sys2Proof
end

