-- ==== Sys2Proof/WellFormed.lean ====
section
/-! DEFINITION. The operand ranges of the commands: what fits its field (30_encoding.md R62, R75). -/

namespace Sys2Proof

/-- A value of an 8-bit field: `count`, `grp`, `crd` are 0..255 (30_encoding.md R75). -/
def fitsByteField (v : Nat) : Bool := v < 256

/-- A value of a 5-bit pin field: `pos`, `neg` are 0..31 (30_encoding.md R66, R75). -/
def fitsPinField (v : Nat) : Bool := v < 32

/-- The command's operands fit their fields (30_encoding.md R75: "The assembler refuses a value that does
not fit its field. It accepts 0 for `<grp>` and `<crd>`"). -/
def Instr.wf : Instr → Bool
  | .reserved000 => true
  | .addGroup count => fitsByteField count
  | .clearAll => true
  | .clearGroup grp => fitsByteField grp
  | .setChannel grp crd pos neg =>
      fitsByteField grp && fitsByteField crd && fitsPinField pos && fitsPinField neg
  | .readImage grp crd => fitsByteField grp && fitsByteField crd
  | .reserved110 => true
  | .reserved111 => true

end Sys2Proof
end

