-- ==== Sys2Proof/Decode.lean ====
section
/-! DEFINITION. The command word: its fields, the decoder (total), and after it the encoder. -/

namespace Sys2Proof

/-- `op = cmd_q[31:29]` (30_encoding.md R62). -/
def opField (w : Word) : BitVec 3 := w.extractLsb' 29 3

/-- `grp = cmd_q[28:21]`, zero-extended to an unsigned integer (30_encoding.md R62). -/
def grpField (w : Word) : Nat := (w.extractLsb' 21 8).toNat

/-- `crd = cmd_q[20:13]` (30_encoding.md R62). -/
def crdField (w : Word) : Nat := (w.extractLsb' 13 8).toNat

/-- `count = cmd_q[20:13]` (30_encoding.md R62, R67). -/
def countField (w : Word) : Nat := (w.extractLsb' 13 8).toNat

/-- `pos = cmd_q[12:8]` (30_encoding.md R62). -/
def posField (w : Word) : Nat := (w.extractLsb' 8 5).toNat

/-- `neg = cmd_q[7:3]` (30_encoding.md R62). -/
def negField (w : Word) : Nat := (w.extractLsb' 3 5).toNat

/-- The command a word stands for. Every word is one complete command (30_encoding.md R61, R74), selected by
bits 31:29 alone (30_encoding.md R63, R64). -/
def decode (w : Word) : Instr :=
  match (opField w).toFin with
  | 0 => .reserved000
  | 1 => .addGroup (countField w)
  | 2 => .clearAll
  | 3 => .clearGroup (grpField w)
  | 4 => .setChannel (grpField w) (crdField w) (posField w) (negField w)
  | 5 => .readImage (grpField w) (crdField w)
  | 6 => .reserved110
  | 7 => .reserved111

/-- Why bits are no command word: the only reason is their number (30_encoding.md R61). -/
inductive DecodeError where
  /-- More than the 32 bits of the command port (30_encoding.md R61): "a decoder always consumes exactly one
  32-bit word". -/
  | tooLong
  deriving DecidableEq, Repr

/-- The word that `nbits` bits, numbered from the least significant, put on the command port; bits above them
are 0 (log entry 13). -/
def tableWord (nbits w : Nat) : Word := BitVec.ofNat 32 (w % 2 ^ nbits)

/-- Decoding of any bits, rejecting by name. -/
def decodeBits (nbits w : Nat) : Except DecodeError Instr :=
  if nbits ≤ 32 then .ok (decode (tableWord nbits w)) else .error .tooLong

/-- The command the decoder reads from `nbits` bits numbered as spec/opcode_table.json numbers them: bit 0 of
the table is `cmd_word[0]` (30_encoding.md R62; log entry 13). -/
def decodeTableWord (nbits w : Nat) : Option Instr :=
  match decodeBits nbits w with
  | .ok i => some i
  | .error _ => none

/-- `v` in the field of `width` bits whose lowest bit is bit `lo` of the word (30_encoding.md R77). -/
def fieldAt (width lo v : Nat) : Word := (BitVec.ofNat width v).setWidth 32 <<< lo

/-- The opcode of a command (30_encoding.md R63). -/
def Instr.opcode : Instr → Nat
  | .reserved000 => 0
  | .addGroup _ => 1
  | .clearAll => 2
  | .clearGroup _ => 3
  | .setChannel _ _ _ _ => 4
  | .readImage _ _ => 5
  | .reserved110 => 6
  | .reserved111 => 7

/-- The command word of a well-formed command (30_encoding.md R77:
`(op << 29) | (grp << 21) | (crd << 13) | (pos << 8) | (neg << 3)`), with 0 in every ignored bit
(30_encoding.md R75). -/
def encode (i : Instr) : Word :=
  fieldAt 3 29 i.opcode |||
  match i with
  | .reserved000 => 0
  | .addGroup count => fieldAt 8 13 count
  | .clearAll => 0
  | .clearGroup grp => fieldAt 8 21 grp
  | .setChannel grp crd pos neg => fieldAt 8 21 grp ||| fieldAt 8 13 crd ||| fieldAt 5 8 pos ||| fieldAt 5 3 neg
  | .readImage grp crd => fieldAt 8 21 grp ||| fieldAt 8 13 crd
  | .reserved110 => 0
  | .reserved111 => 0

end Sys2Proof
end

