-- ==== Sys2Proof/Config.lean ====
section
/-! DEFINITION. What one build of the block fixes (its parameters), one sample of its input ports, and the free values. -/

namespace Sys2Proof

/-- Order of the bits of one byte on the serial line: open, owned by the transport (20_memory.md R48). -/
inductive BitOrder where
  | msbFirst
  | lsbFirst
  deriving DecidableEq, Repr, Inhabited

/-- The implementation parameters of the block (00_scope.md R8). They never change while it runs
(DESIGN CHOICE: carried in `State.cfg`, log entry 2). -/
structure Params where
  /-- `G_MAX`: number of group slots and of latch outputs. -/
  gMax : Nat
  /-- `C_MAX`: largest card count one group may register. -/
  cMax : Nat
  /-- `F_CLK_HZ`: frequency of `clk` in Hz (DESIGN CHOICE: a natural number, log entry 15). -/
  fClkHz : Nat
  /-- `D_LOW_CYCLES`: cycles spent in `S_WAIT_LOW`. -/
  dLowCycles : Nat
  /-- `D_HIGH_CYCLES`: cycles spent in `S_WAIT_HIGH`. -/
  dHighCycles : Nat
  /-- `CNT_W`: width of the delay counter. -/
  cntW : Nat
  /-- `PTR_W`: width of the payload pointer. -/
  ptrW : Nat
  /-- `WIRE_BIT_ORDER`: open (log entry 14); nothing in the block reads it. -/
  wireBitOrder : BitOrder
  deriving DecidableEq, Repr

/-- `ceil(0.040 * F_CLK_HZ)`, the cycles of 40 ms (00_scope.md R8, R171). -/
def Params.lowMinimum (c : Params) : Nat := (40 * c.fClkHz + 999) / 1000

/-- `ceil(0.005 * F_CLK_HZ)`, the cycles of 5 ms (00_scope.md R8, R171). -/
def Params.highMinimum (c : Params) : Nat := (5 * c.fClkHz + 999) / 1000

/-- The legal values of the parameters (00_scope.md R8). `w >= clog2(x)` is written `x <= 2^w`
(DEDUCED, log entry 15). -/
abbrev Params.Legal (c : Params) : Prop :=
  (1 ≤ c.gMax ∧ c.gMax ≤ 255) ∧ (1 ≤ c.cMax ∧ c.cMax ≤ 255) ∧ 0 < c.fClkHz ∧
  max 1 c.lowMinimum ≤ c.dLowCycles ∧ max 1 c.highMinimum ≤ c.dHighCycles ∧
  max c.dLowCycles c.dHighCycles + 1 ≤ 2 ^ c.cntW ∧
  3 * c.gMax * c.cMax + 1 ≤ 2 ^ c.ptrW

/-- The parameters of the block that `State.reset` describes: those of the spec's own programs
(95_test_vectors.md T7), with the slowest widths and clock that make them legal
(DESIGN CHOICE, log entry 2). -/
def Params.vectors : Params :=
  { gMax := 4, cMax := 4, fClkHz := 50, dLowCycles := 2, dHighCycles := 1, cntW := 2, ptrW := 6,
    wireBitOrder := .msbFirst }

/-- One sample of the input ports, as an edge of `clk` sees them (10_state.md R35, R36). -/
structure Pins where
  /-- `rst`, active high. -/
  rst : Bool
  /-- `cmd_valid`. -/
  cmdValid : Bool
  /-- `cmd_word`. -/
  cmdWord : Word
  /-- `tx_ready`. -/
  txReady : Bool
  /-- `tx_idle`. -/
  txIdle : Bool
  /-- `fault_ok_i`: true is OK. -/
  faultOk : Bool
  /-- `rsp_ready`. -/
  rspReady : Bool
  deriving DecidableEq, Repr, Inhabited

/-- FREE VALUE (log entry 3): the input sample at edge `n` where the script of `State.pins` is used up.
The environment may drive anything (43_commit_fsm.md R144), so nothing is known of it. -/
opaque Config.freePins : Nat → Pins

/-- FREE VALUE (log entry 7): `tx_data` where `ptr` is at or past `LEN` in `S_XFER`, which "never happens"
(20_memory.md R45). -/
opaque Config.freeTxData : Nat → Byte

end Sys2Proof
end

