-- ==== Sys2Proof/Machine/State.lean ====
section
/-! DEFINITION. The state of the block as plain data, its stops, the observable events, and its reset. -/

namespace Sys2Proof.Machine

/-- The FSM state register `state` (10_state.md R27), all sixteen values of its 4 bits. -/
inductive Fsm where
  /-- 0, `S_IDLE`. -/
  | idle
  /-- 1, `S_EXEC`. -/
  | exec
  /-- 2, `S_UNLATCH`. -/
  | unlatch
  /-- 3, `S_WAIT_LOW`. -/
  | waitLow
  /-- 4, `S_XFER`. -/
  | xfer
  /-- 5, `S_DRAIN`. -/
  | drain
  /-- 6, `S_LATCH`. -/
  | latch
  /-- 7, `S_WAIT_HIGH`. -/
  | waitHigh
  /-- 8, `S_VERIFY`. -/
  | verify
  /-- 9, `S_RESP`. -/
  | resp
  /-- The codes `10 + k`, which have no name and no meaning (93_implementation_defined.md I9, log entry 8). -/
  | unused (k : Fin 6)
  deriving DecidableEq, Repr

/-- The 4-bit code of a state (10_state.md R27). -/
def Fsm.code : Fsm → BitVec 4
  | .idle => 0
  | .exec => 1
  | .unlatch => 2
  | .waitLow => 3
  | .xfer => 4
  | .drain => 5
  | .latch => 6
  | .waitHigh => 7
  | .verify => 8
  | .resp => 9
  | .unused k => BitVec.ofNat 4 (10 + k.val)

/-- The observable events of 43_commit_fsm.md R148, and `reset`, the model's own (log entry 4). -/
inductive Event where
  /-- `Accept(cmd_word)`. -/
  | accept (w : Word)
  /-- `LatchAll(0)`: every latch bit takes the level. -/
  | latchAll (level : Bool)
  /-- `Byte(i, PAYLOAD[i])`: the transport takes byte `i`. -/
  | byte (i : Nat) (b : Byte)
  /-- `TxIdle`: `tx_idle` is observed high. -/
  | txIdle
  /-- `LatchRegistered(1)`: the latch bits of the registered groups take the level. -/
  | latchRegistered (level : Bool)
  /-- `FaultSample(v)`. -/
  | faultSample (v : Bool)
  /-- `Respond(status, data)`: the host takes the response. -/
  | respond (status : BitVec 3) (data : Word)
  /-- An edge with `rst = 1`. -/
  | reset
  deriving DecidableEq, Repr

/-- The image file as the model's memory: bytes by address, in canonical form (`Memory.wf`; log entry 5). -/
abbrev Memory := List Host.Cell

/-- The machine: the architectural state of 10_state.md R17, the parameters of the build, and three fields of the
model's own (log entries 3 and 4). -/
structure State where
  /-- The parameters (00_scope.md R8); no step writes them (log entry 2). -/
  cfg : Params
  /-- `IMG` (10_state.md R18). -/
  img : Memory
  /-- `NUM_GROUPS` (10_state.md R21). -/
  numGroups : BitVec 8
  /-- `CARD_COUNT[g]`, `G_MAX` of them (10_state.md R22; log entry 10). -/
  cardCount : List (BitVec 8)
  /-- `state` (10_state.md R27). -/
  state : Fsm
  /-- `cmd_q` (10_state.md R28). -/
  cmdQ : Word
  /-- `cnt`, `CNT_W` bits (10_state.md R29; log entry 9). -/
  cnt : Nat
  /-- `ptr`, `PTR_W` bits (10_state.md R30; log entry 9). -/
  ptr : Nat
  /-- `latch_q`, `G_MAX` bits, bit `g` at index `g` (10_state.md R31; log entry 10). -/
  latchQ : List Bool
  /-- `status_q` (10_state.md R32). -/
  statusQ : BitVec 3
  /-- `data_q` (10_state.md R32). -/
  dataQ : Word
  /-- The model's own: input samples of the coming edges, the next edge's first (log entry 3). -/
  pins : List Pins
  /-- The model's own: the number of the coming edge (log entry 4). -/
  cycle : Nat
  /-- The model's own: the events so far, oldest first, each with the number of its edge (log entry 4). -/
  trace : List (Nat × Event)
  deriving DecidableEq, Repr

/-- Why the machine stops. No run from reset of a legal build reaches either. -/
inductive Fault where
  /-- Raised by ADD_GROUP, CLEAR_GROUP, SET_CHANNEL and READ_IMAGE where the topology registers name an image slot
  outside `G_MAX` x `C_MAX`, which does not exist (20_memory.md R41). Safe: the model stops (log entry 6). -/
  | imageSlotAbsent
  /-- Raised by `S_XFER` where `ptr` is at or past `LEN > 0`: `MemRead` is not defined there (20_memory.md R45).
  Safe: the model stops (log entry 7). -/
  | payloadIndexAbsent
  deriving DecidableEq, Repr

/-- Why the model gives no meaning. -/
inductive Refusal where
  /-- An instruction without a meaning in `exec`. Safe: the model stops. No arm of `exec` answers it. -/
  | notModelled (mnemonic : String)
  /-- A step in one of the codes 10..15 of `state` (93_implementation_defined.md I9: "refuse"). Safe: the model
  stops (log entry 8). -/
  | unusedStateCode (code : BitVec 4)
  deriving DecidableEq, Repr

/-- The reset state of a block built with parameters `cfg` (10_state.md R34), with no input scripted. -/
def State.resetWith (cfg : Params) : State :=
  { cfg := cfg
    img := []
    numGroups := 0
    cardCount := List.replicate cfg.gMax 0
    state := .idle
    cmdQ := 0
    cnt := 0
    ptr := 0
    latchQ := List.replicate cfg.gMax false
    statusQ := 0
    dataQ := 0
    pins := []
    cycle := 0
    trace := [] }

/-- The machine right after reset (10_state.md R34), for the parameters of `Params.vectors`
(DESIGN CHOICE of the parameters, log entry 2). -/
def State.reset : State := State.resetWith Params.vectors

end Sys2Proof.Machine
end

