-- ==== Sys2Proof/Machine/Flags.lean ====
section
/-! DEFINITION. The block has no flags (10_state.md R26); its flag-like outputs are the response's status and data.
This file gives their codes. -/

namespace Sys2Proof.Machine

/-- The statuses of a response (30_encoding.md R70, 60_exceptions.md R150). -/
inductive Status where
  | ok
  | faultSeen
  | errOpcode
  | errGroup
  | errCard
  | errCapacity
  deriving DecidableEq, Repr

/-- The 3-bit status code (30_encoding.md R70); 6 and 7 are never produced. -/
def statusCode : Status → BitVec 3
  | .ok => 0
  | .faultSeen => 1
  | .errOpcode => 2
  | .errGroup => 3
  | .errCard => 4
  | .errCapacity => 5

/-- The status of a commit from the fault sample (43_commit_fsm.md R127): `OK` where `fault_ok_i = 1`. -/
def verifyStatus (faultOk : Bool) : Status := if faultOk then .ok else .faultSeen

/-- The pattern a pin pair is recognised as (40_channel_encoder.md R88). -/
inductive Kind where
  | unrecognised
  | currentSense
  | differential
  | singleEnded
  deriving DecidableEq, Repr

/-- The `kind[1:0]` code (40_channel_encoder.md R88). -/
def kindCode : Kind → BitVec 2
  | .unrecognised => 0
  | .currentSense => 1
  | .differential => 2
  | .singleEnded => 3

/-- `rsp_data` of SET_CHANNEL: `zext_32(kind)` (30_encoding.md R71). -/
def kindData (k : Kind) : Word := (kindCode k).setWidth 32

/-- `rsp_data` of READ_IMAGE: `zext_32(IMG[g][c])` (30_encoding.md R71). -/
def imageData (v : Image) : Word := v.setWidth 32

/-- `rsp_data` of ADD_GROUP: the 1-indexed number of the new group (30_encoding.md R71). -/
def groupNumberData (n : Nat) : Word := BitVec.ofNat 32 n

end Sys2Proof.Machine
end

