-- ==== Sys2Proof/Machine/Ops.lean ====
section
/-! DEFINITION. The named operations over the image file, the counters and the response registers, and
`raise Error`, the block's one exception primitive. -/

namespace Sys2Proof.Machine

/-! ### The image file as memory -/

/-- What an unlisted address reads as: the reset contents of the image file (10_state.md R34). -/
def Memory.unlisted : Byte := 0

/-- Canonical form: addresses strictly rising, no entry equal to what an unlisted address reads as. -/
abbrev Memory.wf (m : Memory) : Prop :=
  m.Pairwise (fun x y => x.1 < y.1) ∧ ∀ x ∈ m, x.2 ≠ Memory.unlisted

/-- The byte at an address. -/
def Memory.read : Memory → Nat → Byte
  | [], _ => Memory.unlisted
  | (k, v) :: m, a => if k = a then v else Memory.read m a

/-- Writes one byte and keeps the canonical form: writing the unlisted value removes the entry. -/
def Memory.write : Memory → Nat → Byte → Memory
  | [], a, b => if b = Memory.unlisted then [] else [(a, b)]
  | (k, v) :: m, a, b =>
      if k < a then (k, v) :: Memory.write m a b
      else if k = a then (if b = Memory.unlisted then m else (a, b) :: m)
      else if b = Memory.unlisted then (k, v) :: m
      else (a, b) :: (k, v) :: m

/-- The address of byte `k` of `IMG[g][c]` (20_memory.md R41; DESIGN CHOICE of the numbering, log entry 5). -/
def imgAddr (g c k : Nat) : Nat := 3 * (256 * g + c) + k

/-- Byte `k` of an image: bits `[23-8k : 16-8k]`, so byte 0 is `B0` (10_state.md R18, 20_memory.md R41). -/
def imageByte (v : Image) (k : Nat) : Byte := v.extractLsb' (16 - 8 * k) 8

/-- `{B0, B1, B2}` with `B0` in the high byte (20_memory.md R49). -/
def packImage (b0 b1 b2 : Byte) : Image := (b0 ++ b1 ++ b2 : BitVec 24)

/-- `IMG[g][c]`. -/
def loadImage (m : Memory) (g c : Nat) : Image :=
  packImage (m.read (imgAddr g c 0)) (m.read (imgAddr g c 1)) (m.read (imgAddr g c 2))

/-- `IMG[g][c] <- v`: all three bytes at once (20_memory.md R51, 41_group_aggregator.md R93). -/
def storeImage (m : Memory) (g c : Nat) (v : Image) : Memory :=
  ((m.write (imgAddr g c 0) (imageByte v 0)).write (imgAddr g c 1) (imageByte v 1)).write
    (imgAddr g c 2) (imageByte v 2)

/-! ### The counters, truncated to their widths (10_state.md R29, R30; log entry 9) -/

/-- A value loaded into a register of `w` bits. -/
def truncate (w n : Nat) : Nat := n % 2 ^ w

/-- `n - 1` in a register of `w` bits. -/
def decrement (w n : Nat) : Nat := (n + (2 ^ w - 1)) % 2 ^ w

/-- `n + 1` in a register of `w` bits. -/
def increment (w n : Nat) : Nat := (n + 1) % 2 ^ w

/-! ### Responses and errors -/

/-- The registers after `raise Error(code)`: `status_q` and `data_q` written, `state` to `S_RESP`, nothing else
(60_exceptions.md R149). -/
def State.errorResponse (s : State) (code : Status) : State :=
  { s with statusQ := statusCode code, dataQ := 0, state := .resp }

/-- TAKING AN EXCEPTION: `raise Error(code)` (60_exceptions.md R149). It saves nothing beyond `status_q`, changes
no mode and takes no vector; the block has no return from it (60_exceptions.md R160): the response is taken like
any other (43_commit_fsm.md R128). -/
def raiseError (code : Status) (s : State) : Host.Outcome State Fault Refusal :=
  .next (s.errorResponse code)

/-- The end of `S_EXEC` of a command that does not commit: `OK` with `data`, to `S_RESP`
(42_stack_commands.md R107, R111). -/
def State.okResponse (s : State) (data : Word) : State :=
  { s with statusQ := statusCode .ok, dataQ := data, state := .resp }

/-- The end of `S_EXEC` of a commit command: provisional `OK` with `data`, to `S_UNLATCH`
(42_stack_commands.md R108, R109, R110). -/
def State.beginCommit (s : State) (data : Word) : State :=
  { s with statusQ := statusCode .ok, dataQ := data, state := .unlatch }

/-- Records an event at the coming edge (43_commit_fsm.md R148; log entry 4). -/
def State.record (s : State) (e : Event) : State := { s with trace := s.trace ++ [(s.cycle, e)] }

/-! ### The edge -/

/-- The input sample of the coming edge: the script's first, and a free value where the script is used up
(log entry 3). -/
def State.nextPins (s : State) : Pins :=
  match s.pins with
  | p :: _ => p
  | [] => Config.freePins s.cycle

/-- The passing of one edge over the model's own fields: its sample is used up, the edge is counted. -/
def State.tick (s : State) : State := { s with pins := s.pins.tail, cycle := s.cycle + 1 }

/-- `tick` on the next state of an outcome. -/
def afterEdge : Host.Outcome State Fault Refusal → Host.Outcome State Fault Refusal
  | .next s => .next s.tick
  | .fault r => .fault r
  | .refused r => .refused r

/-- An edge with `rst = 1`: every state element at its reset value (10_state.md R16, R34; 70_reset_and_hazards.md
R162, R163). The parameters and the model's own fields are no state elements. -/
def State.resetEdge (s : State) : State :=
  { State.resetWith s.cfg with
    pins := s.pins, cycle := s.cycle, trace := s.trace ++ [(s.cycle, .reset)] }

end Sys2Proof.Machine
end

