-- ==== Sys2Proof/Machine/Encoder.lean ====
section
/-! DEFINITION. The channel encoder: a pin pair to a card's image and its kind (40_channel_encoder.md). -/

namespace Sys2Proof.Machine

/-- The pin-pair-group table `T` (40_channel_encoder.md R80). -/
def pinPairTable : List Byte := [0x80, 0x40, 0x10, 0x08, 0x04]

/-- `T[i]`, for `i` in 0..4 (40_channel_encoder.md R80). -/
def tableByte (i : Nat) : Byte := pinPairTable.getD i 0

/-- A selected pin's table bit in `B0` (pins 1..10) or `B1` (pins 11..20), with `b2` in `B2`
(40_channel_encoder.md R86). -/
def pinImage (p : Nat) (b2 : Byte) : Image :=
  if p ≤ 10 then packImage (tableByte ((p - 1) / 2)) 0 b2
  else packImage 0 (tableByte ((p - 11) / 2)) b2

/-- `encode(p, n)` (40_channel_encoder.md R86), named so beside the encoder of command words. -/
def encodeChannel (p n : Nat) : Image × Kind :=
  if p = 21 then (packImage 0x00 0x02 0x00, .currentSense)
  else if p % 2 = 1 ∧ 1 ≤ p ∧ p ≤ 19 ∧ n = p + 1 then (pinImage p 0x10, .differential)
  else if n = 0 ∧ 1 ≤ p ∧ p ≤ 20 then (pinImage p (if p % 2 = 1 then 0x08 else 0x04), .singleEnded)
  else (packImage 0x00 0x00 0x00, .unrecognised)

end Sys2Proof.Machine
end

