-- ==== Sys2Proof/Machine/Operands.lean ====
section
/-! DEFINITION. The operand forms of the commands: group and card numbers and their checks
(30_encoding.md R65, 42_stack_commands.md R105, R106). -/

namespace Sys2Proof.Machine

/-- `NUM_GROUPS` as an unsigned integer (10_state.md R21). -/
def State.groups (s : State) : Nat := s.numGroups.toNat

/-- `CARD_COUNT[g]` as an unsigned integer (10_state.md R22; past the register file it reads 0, log entry 10). -/
def State.cards (s : State) (g : Nat) : Nat := (s.cardCount.getD g 0).toNat

/-- The group check: goes on with the 0-indexed `g = grp - 1` where `1 <= grp <= NUM_GROUPS`, and raises ERR_GROUP
otherwise (42_stack_commands.md R105, 60_exceptions.md R152). -/
def withGroup (grp : Nat) (s : State) (k : Nat → Host.Outcome State Fault Refusal) :
    Host.Outcome State Fault Refusal :=
  if 1 ≤ grp ∧ grp ≤ s.groups then k (grp - 1) else raiseError .errGroup s

/-- The card check of group `g`: goes on with the 0-indexed `c = crd - 1` where `1 <= crd <= CARD_COUNT[g]`, and
raises ERR_CARD otherwise (42_stack_commands.md R105, 60_exceptions.md R153). -/
def withCard (g crd : Nat) (s : State) (k : Nat → Host.Outcome State Fault Refusal) :
    Host.Outcome State Fault Refusal :=
  if 1 ≤ crd ∧ crd ≤ s.cards g then k (crd - 1) else raiseError .errCard s

/-- Goes on where the slots of group `g` exist (20_memory.md R41), and stops otherwise (log entry 6). -/
def withGroupSlots (g : Nat) (s : State) (k : Host.Outcome State Fault Refusal) :
    Host.Outcome State Fault Refusal :=
  if g < s.cfg.gMax then k else .fault .imageSlotAbsent

/-- Goes on where slot `(g, c)` exists (20_memory.md R41), and stops otherwise (log entry 6). -/
def withSlot (g c : Nat) (s : State) (k : Host.Outcome State Fault Refusal) :
    Host.Outcome State Fault Refusal :=
  if g < s.cfg.gMax ∧ c < s.cfg.cMax then k else .fault .imageSlotAbsent

end Sys2Proof.Machine
end

