-- ==== Sys2Proof/Machine/Aggregator.lean ====
section
/-! DEFINITION. The operations of the card registers and group buffers, and the payload they make up
(41_group_aggregator.md, 20_memory.md). -/

namespace Sys2Proof.Machine

/-- `card_set(g, c, p, n)` (41_group_aggregator.md R93). -/
def cardSet (m : Memory) (g c p n : Nat) : Memory := storeImage m g c (encodeChannel p n).1

/-- `card_clear(g, c)` (41_group_aggregator.md R94). -/
def cardClear (m : Memory) (g c : Nat) : Memory := storeImage m g c 0

/-- `group_clear(g)`: every slot of the group, `for c in 0..C_MAX-1` (41_group_aggregator.md R95). -/
def groupClear (cMax : Nat) (m : Memory) (g : Nat) : Memory :=
  (List.range cMax).foldl (fun m c => cardClear m g c) m

/-- `group_set(g, c, p, n)`: `group_clear(g)` and then `card_set(g, c, p, n)`, at one edge
(41_group_aggregator.md R96). -/
def groupSet (cMax : Nat) (m : Memory) (g c p n : Nat) : Memory := cardSet (groupClear cMax m g) g c p n

/-- Every slot of the file zero: the loops of CLEAR_ALL (42_stack_commands.md R108). -/
def stackClear (gMax cMax : Nat) (m : Memory) : Memory :=
  (List.range gMax).foldl (fun m g => groupClear cMax m g) m

/-- `IMG[g][c]` of a state. -/
def State.image (s : State) (g c : Nat) : Image := loadImage s.img g c

/-- `CI(g, c) = [B0, B1, B2]` (41_group_aggregator.md R97). -/
def State.cardBytes (s : State) (g c : Nat) : List Byte :=
  [imageByte (s.image g c) 0, imageByte (s.image g c) 1, imageByte (s.image g c) 2]

/-- `GP(g)`, cards in declaration order (41_group_aggregator.md R97). -/
def State.groupPayload (s : State) (g : Nat) : List Byte := (List.range (s.cards g)).flatMap (s.cardBytes g)

/-- `PAYLOAD`, groups in registration order (20_memory.md R44). -/
def State.payload (s : State) : List Byte := (List.range s.groups).flatMap s.groupPayload

/-- `BASE(g)` (20_memory.md R43). -/
def State.base (s : State) (g : Nat) : Nat := 3 * ((List.range g).map s.cards).sum

/-- `LEN = BASE(NUM_GROUPS)` (20_memory.md R44). -/
def State.len (s : State) : Nat := s.base s.groups

/-- `MemRead(i, 1)` (20_memory.md R45); none where `i` is at or past `LEN`, where no group owns the offset. -/
def State.memRead (s : State) (i : Nat) : Option Byte :=
  match (List.range s.groups).find? (fun g => s.base g ≤ i && i < s.base (g + 1)) with
  | some g => some (imageByte (s.image g ((i - s.base g) / 3)) ((i - s.base g) % 3))
  | none => none

end Sys2Proof.Machine
end

