-- ==== Sys2Proof/Machine/Commit.lean ====
section
/-! DEFINITION. The control FSM outside `S_EXEC`: the handshakes and the seven-step commit protocol, one definition
per state: the writes of one cycle spent in it (43_commit_fsm.md R118 to R128). -/

namespace Sys2Proof.Machine

/-- `S_IDLE`: accepts the offered command (43_commit_fsm.md R119, 30_encoding.md R72). -/
def idleEdge (p : Pins) (s : State) : Host.Outcome State Fault Refusal :=
  if p.cmdValid then
    .next ((({ s with cmdQ := p.cmdWord, state := .exec } : State)).record (.accept p.cmdWord))
  else .next s

/-- `S_UNLATCH`: every latch bit to 0, the low delay loaded (43_commit_fsm.md R121). -/
def unlatchEdge (s : State) : Host.Outcome State Fault Refusal :=
  .next ((({ s with
      latchQ := List.replicate s.cfg.gMax false
      cnt := truncate s.cfg.cntW s.cfg.dLowCycles
      state := .waitLow } : State)).record (.latchAll false))

/-- `S_WAIT_LOW`: counts the low delay; its last cycle clears `ptr` (43_commit_fsm.md R122). -/
def waitLowEdge (s : State) : Host.Outcome State Fault Refusal :=
  if s.cnt = 1 then .next { s with ptr := 0, state := .xfer }
  else .next { s with cnt := decrement s.cfg.cntW s.cnt }

/-- `S_XFER`: offers byte `ptr` of the payload and advances where the transport takes it; with `LEN = 0` offers
none (43_commit_fsm.md R123). -/
def xferEdge (p : Pins) (s : State) : Host.Outcome State Fault Refusal :=
  if s.len = 0 then .next { s with state := .drain }
  else match s.memRead s.ptr with
    | none => .fault .payloadIndexAbsent
    | some b =>
      if p.txReady then
        if s.ptr = s.len - 1 then .next ((({ s with state := .drain } : State)).record (.byte s.ptr b))
        else .next ((({ s with ptr := increment s.cfg.ptrW s.ptr } : State)).record (.byte s.ptr b))
      else .next s

/-- `S_DRAIN`: waits for the transport to be idle (43_commit_fsm.md R124). -/
def drainEdge (p : Pins) (s : State) : Host.Outcome State Fault Refusal :=
  if p.txIdle then .next ((({ s with state := .latch } : State)).record .txIdle) else .next s

/-- The latch bits of `S_LATCH`: `latch_q[g] <- (g < NUM_GROUPS)` (43_commit_fsm.md R125). -/
def State.registeredLatch (s : State) : List Bool := (List.range s.cfg.gMax).map (fun g => decide (g < s.groups))

/-- `S_LATCH`: the latch bit of every registered group to 1, the high delay loaded (43_commit_fsm.md R125). -/
def latchEdge (s : State) : Host.Outcome State Fault Refusal :=
  .next ((({ s with
      latchQ := s.registeredLatch
      cnt := truncate s.cfg.cntW s.cfg.dHighCycles
      state := .waitHigh } : State)).record (.latchRegistered true))

/-- `S_WAIT_HIGH`: counts the high delay (43_commit_fsm.md R126). -/
def waitHighEdge (s : State) : Host.Outcome State Fault Refusal :=
  if s.cnt = 1 then .next { s with state := .verify }
  else .next { s with cnt := decrement s.cfg.cntW s.cnt }

/-- `S_VERIFY`: one sample of the fault line decides the status; nothing is rolled back (43_commit_fsm.md R127,
60_exceptions.md R155). -/
def verifyEdge (p : Pins) (s : State) : Host.Outcome State Fault Refusal :=
  .next ((({ s with statusQ := statusCode (verifyStatus p.faultOk), state := .resp } : State)).record
    (.faultSample p.faultOk))

/-- `S_RESP`: holds the response until the host takes it (43_commit_fsm.md R128, 30_encoding.md R73). -/
def respEdge (p : Pins) (s : State) : Host.Outcome State Fault Refusal :=
  if p.rspReady then .next ((({ s with state := .idle } : State)).record (.respond s.statusQ s.dataQ))
  else .next s

end Sys2Proof.Machine
end

