-- ==== Sys2Proof/Machine/Channel.lean ====
section
/-! DEFINITION. SET_CHANNEL: the `S_EXEC` cycle (42_stack_commands.md R105, R110). -/

namespace Sys2Proof.Machine

/-- `SET_CHANNEL grp, crd, pos, neg`: `group_set`, `kind` in `data_q`, then the commit. A failed check clears
nothing (42_stack_commands.md R110). -/
def execSetChannel (grp crd pos neg : Nat) (s : State) : Host.Outcome State Fault Refusal :=
  withGroup grp s fun g => withCard g crd s fun c => withSlot g c s
    (.next (({ s with img := groupSet s.cfg.cMax s.img g c pos neg } : State).beginCommit
      (kindData (encodeChannel pos neg).2)))

end Sys2Proof.Machine
end

