-- ==== Sys2Proof/Machine/Clear.lean ====
section
/-! DEFINITION. CLEAR_ALL and CLEAR_GROUP: the `S_EXEC` cycle (42_stack_commands.md R105, R108, R109). -/

namespace Sys2Proof.Machine

/-- `CLEAR_ALL`: every image zero, then the commit (42_stack_commands.md R108). -/
def execClearAll (s : State) : Host.Outcome State Fault Refusal :=
  .next (({ s with img := stackClear s.cfg.gMax s.cfg.cMax s.img } : State).beginCommit 0)

/-- `CLEAR_GROUP grp`: `group_clear(grp - 1)`, then the commit (42_stack_commands.md R109). -/
def execClearGroup (grp : Nat) (s : State) : Host.Outcome State Fault Refusal :=
  withGroup grp s fun g => withGroupSlots g s
    (.next (({ s with img := groupClear s.cfg.cMax s.img g } : State).beginCommit 0))

end Sys2Proof.Machine
end

