-- ==== Sys2Proof/Machine/Diagnostic.lean ====
section
/-! DEFINITION. READ_IMAGE: the `S_EXEC` cycle (42_stack_commands.md R105, R111). -/

namespace Sys2Proof.Machine

/-- `READ_IMAGE grp, crd`: the image in `data_q`; no commit and no side effect (42_stack_commands.md R111). -/
def execReadImage (grp crd : Nat) (s : State) : Host.Outcome State Fault Refusal :=
  withGroup grp s fun g => withCard g crd s fun c => withSlot g c s
    (.next (s.okResponse (imageData (s.image g c))))

end Sys2Proof.Machine
end

