-- ==== Sys2Proof/Machine/Reserved.lean ====
section
/-! DEFINITION. The reserved opcodes: the `S_EXEC` cycle (42_stack_commands.md R112, 60_exceptions.md R151). -/

namespace Sys2Proof.Machine

/-- `RESERVED_000`: ERR_OPCODE, no other effect (42_stack_commands.md R112). -/
def execReserved000 (s : State) : Host.Outcome State Fault Refusal := raiseError .errOpcode s

/-- `RESERVED_110`: ERR_OPCODE, no other effect (42_stack_commands.md R112). -/
def execReserved110 (s : State) : Host.Outcome State Fault Refusal := raiseError .errOpcode s

/-- `RESERVED_111`: ERR_OPCODE, no other effect (42_stack_commands.md R112). -/
def execReserved111 (s : State) : Host.Outcome State Fault Refusal := raiseError .errOpcode s

end Sys2Proof.Machine
end

