-- ==== Sys2Proof/Machine/Topology.lean ====
section
/-! DEFINITION. ADD_GROUP: the `S_EXEC` cycle (42_stack_commands.md R105, R107). -/

namespace Sys2Proof.Machine

/-- `ADD_GROUP count`: ERR_CAPACITY where no slot is left or the count exceeds `C_MAX`; otherwise the group is
appended, its slots zeroed, and the response is its 1-indexed number. No commit (42_stack_commands.md R107). -/
def execAddGroup (count : Nat) (s : State) : Host.Outcome State Fault Refusal :=
  if s.groups = s.cfg.gMax ∨ s.cfg.cMax < count then raiseError .errCapacity s
  else withGroupSlots s.groups s
    (.next (({ s with
        img := groupClear s.cfg.cMax s.img s.groups
        cardCount := s.cardCount.set s.groups (BitVec.ofNat 8 count)
        numGroups := BitVec.ofNat 8 (s.groups + 1) } : State).okResponse (groupNumberData (s.groups + 1))))

end Sys2Proof.Machine
end

