-- ==== Sys2Proof/Machine/Dispatch.lean ====
section
/-! DEFINITION. One arm per command: its `S_EXEC` cycle (42_stack_commands.md R105). -/

namespace Sys2Proof.Machine

def exec (i : Instr) (s : State) : Host.Outcome State Fault Refusal :=
  match i with
  | .reserved000 => Sys2Proof.Machine.execReserved000 s
  | .addGroup count => Sys2Proof.Machine.execAddGroup count s
  | .clearAll => Sys2Proof.Machine.execClearAll s
  | .clearGroup grp => Sys2Proof.Machine.execClearGroup grp s
  | .setChannel grp crd pos neg => Sys2Proof.Machine.execSetChannel grp crd pos neg s
  | .readImage grp crd => Sys2Proof.Machine.execReadImage grp crd s
  | .reserved110 => Sys2Proof.Machine.execReserved110 s
  | .reserved111 => Sys2Proof.Machine.execReserved111 s

end Sys2Proof.Machine
end

