-- ==== Sys2Proof/Machine/Edge.lean ====
section
/-! DEFINITION. One cycle of the FSM with `rst = 0`: which definition each state runs (43_commit_fsm.md R118). -/

namespace Sys2Proof.Machine

/-- The command in `cmd_q`: `S_EXEC` decodes it (42_stack_commands.md R105). -/
def State.command (s : State) : Instr := decode s.cmdQ

/-- `S_EXEC`: the effect of the command in `cmd_q` (43_commit_fsm.md R120). -/
def execEdge (s : State) : Host.Outcome State Fault Refusal := exec s.command s

/-- The writes at the edge that ends a cycle with `rst = 0`, over the architectural state and the trace. -/
def fsmEdge (p : Pins) (s : State) : Host.Outcome State Fault Refusal :=
  match s.state with
  | .idle => idleEdge p s
  | .exec => execEdge s
  | .unlatch => unlatchEdge s
  | .waitLow => waitLowEdge s
  | .xfer => xferEdge p s
  | .drain => drainEdge p s
  | .latch => latchEdge s
  | .waitHigh => waitHighEdge s
  | .verify => verifyEdge p s
  | .resp => respEdge p s
  | .unused k => .refused (.unusedStateCode (Fsm.unused k).code)

/-- One edge under the input sample `p`: `rst` wins over everything (70_reset_and_hazards.md R163). -/
def edge (p : Pins) (s : State) : Host.Outcome State Fault Refusal :=
  if p.rst then .next s.resetEdge else fsmEdge p s

/-- The sample of the coming edge with `rst = 0`: what placing a command in `S_EXEC` asks of the input script
(log entry 11). -/
def State.pinsWithoutReset (s : State) : List Pins := { s.nextPins with rst := false } :: s.pins.tail

end Sys2Proof.Machine
end

