-- ==== Sys2Proof/Machine/Step.lean ====
section
/-! DEFINITION. One step of the machine is one rising edge of `clk` (10_state.md R16; log entry 1). -/

namespace Sys2Proof.Machine

/-- One rising edge of `clk`. -/
def step (s : State) : Host.Outcome State Fault Refusal := afterEdge (edge s.nextPins s)

/-- `s` with the command word of `nbits` bits `w` in `cmd_q` and the FSM in `S_EXEC`, `rst` low at the coming edge:
the next step is the `S_EXEC` cycle of that command (log entry 11). -/
def State.withFetchWord (s : State) (nbits w : Nat) : State :=
  { s with cmdQ := tableWord nbits w, state := .exec, pins := s.pinsWithoutReset }

end Sys2Proof.Machine
end

