-- ==== Sys2Proof/Machine/Assembler.lean ====
section
/-! DEFINITION. The assembly syntax of commands and the pseudo-instructions (30_encoding.md R75, R76, R77):
text as a list of characters to command words. -/

namespace Sys2Proof.Machine

/-- Why the assembler refuses a line (30_encoding.md R75, R76; the names are the model's, log entry 19). -/
inductive AsmError where
  /-- No mnemonic, pseudo-instruction or `.word`. -/
  | unknownMnemonic
  /-- An operand that is no decimal or `0x` number. -/
  | badOperand
  /-- Not the number of operands the mnemonic takes. -/
  | operandCount
  /-- "The assembler refuses a value that does not fit its field." -/
  | outOfRange
  /-- A pseudo-instruction's operand constraint fails. -/
  | pseudoConstraint
  deriving DecidableEq, Repr

/-- The pseudo-instructions (30_encoding.md R76). -/
inductive Pseudo where
  /-- `SET_SE <grp>, <crd>, <p>`. -/
  | setSe (grp : Nat) (crd : Nat) (p : Nat)
  /-- `SET_DIFF <grp>, <crd>, <p>`. -/
  | setDiff (grp : Nat) (crd : Nat) (p : Nat)
  /-- `SET_CURRENT <grp>, <crd>`. -/
  | setCurrent (grp : Nat) (crd : Nat)
  deriving DecidableEq, Repr

/-- The expansion of a pseudo-instruction, refused where its operand constraint fails (30_encoding.md R76). -/
def expand : Pseudo → Except AsmError Instr
  | .setSe grp crd p =>
      if 1 ≤ p ∧ p ≤ 20 then .ok (.setChannel grp crd p 0) else .error .pseudoConstraint
  | .setDiff grp crd p =>
      if p % 2 = 1 ∧ 1 ≤ p ∧ p ≤ 19 then .ok (.setChannel grp crd p (p + 1)) else .error .pseudoConstraint
  | .setCurrent grp crd => .ok (.setChannel grp crd 21 0)

/-- White space within a line (log entry 19). -/
def isBlank (c : Char) : Bool := c = ' ' || c = '\t' || c = '\r'

/-- A line without the blanks at its two ends. -/
def trim (l : List Char) : List Char := ((l.dropWhile isBlank).reverse.dropWhile isBlank).reverse

/-- A list cut at each `sep`. -/
def splitAtEach (sep : Char) : List Char → List (List Char)
  | [] => [[]]
  | c :: l =>
      if c = sep then [] :: splitAtEach sep l
      else match splitAtEach sep l with
        | [] => [[c]]
        | x :: xs => (c :: x) :: xs

/-- A decimal digit. -/
def decimalDigit (c : Char) : Option Nat :=
  if 48 ≤ c.toNat ∧ c.toNat ≤ 57 then some (c.toNat - 48) else none

/-- A hexadecimal digit, either case. -/
def hexDigit (c : Char) : Option Nat :=
  if 48 ≤ c.toNat ∧ c.toNat ≤ 57 then some (c.toNat - 48)
  else if 97 ≤ c.toNat ∧ c.toNat ≤ 102 then some (c.toNat - 87)
  else if 65 ≤ c.toNat ∧ c.toNat ≤ 70 then some (c.toNat - 55)
  else none

/-- The number a run of digits stands for, after the digits read so far. -/
def digits (base : Nat) (digit : Char → Option Nat) : Nat → List Char → Option Nat
  | n, [] => some n
  | n, c :: cs => match digit c with
      | some d => digits base digit (n * base + d) cs
      | none => none

/-- A `0x` hexadecimal number. -/
def hexNumber : List Char → Option Nat
  | '0' :: 'x' :: c :: cs => digits 16 hexDigit 0 (c :: cs)
  | _ => none

/-- A decimal number: at least one digit. -/
def decimalNumber : List Char → Option Nat
  | [] => none
  | c :: cs => digits 10 decimalDigit 0 (c :: cs)

/-- "Operands are ... decimal or `0x` hexadecimal" (30_encoding.md R75). -/
def number (l : List Char) : Option Nat :=
  match hexNumber l with
  | some n => some n
  | none => decimalNumber l

/-- Every operand as a number, or none. -/
def numbers : List (List Char) → Option (List Nat)
  | [] => some []
  | o :: os => match number (trim o), numbers os with
      | some n, some ns => some (n :: ns)
      | _, _ => none

/-- The operands of a line: separated by commas, none where only blanks follow the mnemonic. -/
def operandTexts (l : List Char) : List (List Char) :=
  if trim l = [] then [] else splitAtEach ',' l

/-- The word of a command whose operands fit their fields (30_encoding.md R75, R77). -/
def assembleInstr (i : Instr) : Except AsmError Word :=
  if i.wf then .ok (encode i) else .error .outOfRange

/-- A pseudo-instruction's word. -/
def assemblePseudo (q : Pseudo) : Except AsmError Word :=
  match expand q with
  | .ok i => assembleInstr i
  | .error e => .error e

/-- The command of a mnemonic in capitals and its operands (30_encoding.md R75, R76). -/
def assembleNumbers (mnemonic : List Char) (ops : List Nat) : Except AsmError Word :=
  if mnemonic = "ADD_GROUP".toList then
    match ops with
    | [count] => assembleInstr (.addGroup count)
    | _ => .error .operandCount
  else if mnemonic = "CLEAR_ALL".toList then
    match ops with
    | [] => assembleInstr .clearAll
    | _ => .error .operandCount
  else if mnemonic = "CLEAR_GROUP".toList then
    match ops with
    | [grp] => assembleInstr (.clearGroup grp)
    | _ => .error .operandCount
  else if mnemonic = "SET_CHANNEL".toList then
    match ops with
    | [grp, crd, pos, neg] => assembleInstr (.setChannel grp crd pos neg)
    | _ => .error .operandCount
  else if mnemonic = "READ_IMAGE".toList then
    match ops with
    | [grp, crd] => assembleInstr (.readImage grp crd)
    | _ => .error .operandCount
  else if mnemonic = "SET_SE".toList then
    match ops with
    | [grp, crd, p] => assemblePseudo (.setSe grp crd p)
    | _ => .error .operandCount
  else if mnemonic = "SET_DIFF".toList then
    match ops with
    | [grp, crd, p] => assemblePseudo (.setDiff grp crd p)
    | _ => .error .operandCount
  else if mnemonic = "SET_CURRENT".toList then
    match ops with
    | [grp, crd] => assemblePseudo (.setCurrent grp crd)
    | _ => .error .operandCount
  else .error .unknownMnemonic

/-- `.word 0x<hex>`: any 32-bit word (30_encoding.md R75). -/
def assembleWord (l : List Char) : Except AsmError Word :=
  match hexNumber (trim l) with
  | some n => if n < 2 ^ 32 then .ok (BitVec.ofNat 32 n) else .error .outOfRange
  | none => .error .badOperand

/-- One line: `;` starts a comment, and the mnemonic is read in either letter case (30_encoding.md R75). That `.word` is
read in either case too, and that a line of blanks is no command, is the model's choice (log entry 19). -/
def assembleLine (line : List Char) : Except AsmError (Option Word) :=
  let body := trim (line.takeWhile (fun c => c ≠ ';'))
  let mnemonic := (body.takeWhile (fun c => !isBlank c)).map Char.toUpper
  let rest := body.dropWhile (fun c => !isBlank c)
  if body = [] then .ok none
  else if mnemonic = ".WORD".toList then (assembleWord rest).map some
  else match numbers (operandTexts rest) with
    | some ops => (assembleNumbers mnemonic ops).map some
    | none => .error .badOperand

/-- The words of the lines, or the first refusal. -/
def assembleLines : List (List Char) → Except AsmError (List Word)
  | [] => .ok []
  | l :: ls => match assembleLine l, assembleLines ls with
      | .error e, _ => .error e
      | .ok _, .error e => .error e
      | .ok none, .ok ws => .ok ws
      | .ok (some w), .ok ws => .ok (w :: ws)

/-- A program text: one command a line (30_encoding.md R75). -/
def assemble (text : List Char) : Except AsmError (List Word) := assembleLines (splitAtEach '\n' text)

end Sys2Proof.Machine
end

