-- ==== Sys2Proof/Machine/Ports.lean ====
section
/-! DEFINITION. The output ports as functions of the registers (10_state.md R35, R36, R37, 43_commit_fsm.md R129). -/

namespace Sys2Proof.Machine

/-- The levels of the output ports during a cycle. -/
structure Outputs where
  cmdReady : Bool
  rspValid : Bool
  rspStatus : BitVec 3
  rspData : Word
  txValid : Bool
  txData : Byte
  txLast : Bool
  latchO : List Bool
  deriving DecidableEq, Repr

/-- `tx_valid`: a payload byte is offered (43_commit_fsm.md R129). -/
def State.txValid (s : State) : Bool := s.state = .xfer && s.len ≠ 0

/-- `tx_data`: `MemRead(ptr, 1)` while `tx_valid = 1`, otherwise 0x00 (10_state.md R36); a free value where
`MemRead` is not defined (log entry 7). -/
def State.txData (s : State) : Byte :=
  if s.txValid then (s.memRead s.ptr).getD (Config.freeTxData s.ptr) else 0

/-- `tx_last`: the offered byte is the last of the payload (10_state.md R36). -/
def State.txLast (s : State) : Bool := s.txValid && s.ptr = s.len - 1

/-- Every output port (43_commit_fsm.md R129). -/
def outputs (s : State) : Outputs :=
  { cmdReady := s.state = .idle
    rspValid := s.state = .resp
    rspStatus := s.statusQ
    rspData := s.dataQ
    txValid := s.txValid
    txData := s.txData
    txLast := s.txLast
    latchO := s.latchQ }

end Sys2Proof.Machine
end

