-- ==== Sys2Proof/Safety.lean ====
section
/-! DEFINITION. What the claims speak of: runs, what the environment does in them, the invariants of the block, and the
bytes a commit has sent. -/

namespace Sys2Proof.Machine

/-! ### Runs and their environment -/

/-- `n` steps, stopping at the first stop. -/
def runSteps : Nat → State → Host.Outcome State Fault Refusal
  | 0, s => .next s
  | n + 1, s => match step s with
      | .next t => runSteps n t
      | .fault r => .fault r
      | .refused r => .refused r

/-- The input sample of the edge `k` edges after the coming one. -/
def State.pinsAt (s : State) (k : Nat) : Pins :=
  match s.pins[k]? with
  | some p => p
  | none => Config.freePins (s.cycle + k)

/-- `rst` is low at the next `n` edges. -/
abbrev State.NoReset (s : State) (n : Nat) : Prop := ∀ k < n, (s.pinsAt k).rst = false

/-- `s` after `n` edges have passed that changed nothing else. -/
def State.ticks (s : State) (n : Nat) : State := { s with pins := s.pins.drop n, cycle := s.cycle + n }

/-- `s` with `p` for the sample of the coming edge. -/
def State.withSample (s : State) (p : Pins) : State := { s with pins := p :: s.pins.tail }

/-- The commands that run the commit protocol (42_stack_commands.md R116). -/
def commits : Instr → Bool
  | .clearAll => true
  | .clearGroup _ => true
  | .setChannel _ _ _ _ => true
  | .reserved000 => false
  | .addGroup _ => false
  | .readImage _ _ => false
  | .reserved110 => false
  | .reserved111 => false

/-! ### Invariants -/

/-- The registers have the shape a legal build gives them: legal parameters, `G_MAX` card counts and latch bits,
counts within their bounds (10_state.md R21, R22, R23), the image file canonical and inside `G_MAX` x `C_MAX`
(20_memory.md R41). -/
abbrev State.Configured (s : State) : Prop :=
  s.cfg.Legal ∧ s.cardCount.length = s.cfg.gMax ∧ s.latchQ.length = s.cfg.gMax ∧
  s.groups ≤ s.cfg.gMax ∧ (∀ n ∈ s.cardCount, n.toNat ≤ s.cfg.cMax) ∧
  s.img.wf ∧ ∀ x ∈ s.img, x.1 / 768 < s.cfg.gMax ∧ x.1 / 3 % 256 < s.cfg.cMax

/-- Slots outside the configured topology hold 0 (10_state.md R20). -/
abbrev State.UnconfiguredZero (s : State) : Prop :=
  ∀ g < s.cfg.gMax, ∀ c < s.cfg.cMax, s.groups ≤ g ∨ s.cards g ≤ c → s.image g c = 0

/-- At most one card of a group has a non-zero image (41_group_aggregator.md R99). -/
abbrev State.AtMostOneSelected (s : State) : Prop :=
  ∀ g < s.cfg.gMax, ∀ c < s.cfg.cMax, ∀ c' < s.cfg.cMax, s.image g c ≠ 0 → s.image g c' ≠ 0 → c = c'

/-- The image bits the encoder never sets: `B0` 5, 1, 0, `B1` 5, 0 and `B2` 7, 6, 5, 1, 0 (10_state.md R19). -/
def neverMask : Image := 0x2321E3

/-- A bit marked "never" is 0 in every image the block holds (10_state.md R19). -/
abbrev State.NeverBitsZero (s : State) : Prop :=
  ∀ g < s.cfg.gMax, ∀ c < s.cfg.cMax, s.image g c &&& neverMask = 0

/-- The latch bits of unregistered groups are 0 (10_state.md R39). -/
abbrev State.UnregisteredLow (s : State) : Prop :=
  ∀ g < s.cfg.gMax, s.groups ≤ g → s.latchQ.getD g false = false

/-- The sequencer: a named state code (93_implementation_defined.md I9), counters inside their widths and, where
a state uses them, inside their ranges (60_exceptions.md R157). -/
abbrev State.SequencerOk (s : State) : Prop :=
  (∀ k, s.state ≠ .unused k) ∧ s.cnt < 2 ^ s.cfg.cntW ∧ s.ptr < 2 ^ s.cfg.ptrW ∧
  (s.state = .waitLow → 1 ≤ s.cnt ∧ s.cnt ≤ s.cfg.dLowCycles) ∧
  (s.state = .waitHigh → 1 ≤ s.cnt ∧ s.cnt ≤ s.cfg.dHighCycles) ∧
  (s.state = .xfer → s.ptr < s.len ∨ s.len = 0 ∧ s.ptr = 0)

/-- The latch lines in a commit: low from `S_UNLATCH` to `S_LATCH` (43_commit_fsm.md R142), then high for the
registered groups. -/
abbrev State.LinesOk (s : State) : Prop :=
  (s.state = .waitLow ∨ s.state = .xfer ∨ s.state = .drain ∨ s.state = .latch →
    s.latchQ = List.replicate s.cfg.gMax false) ∧
  (s.state = .waitHigh ∨ s.state = .verify → s.latchQ = s.registeredLatch)

/-- The invariant of the block. -/
abbrev State.BlockInv (s : State) : Prop :=
  s.Configured ∧ s.UnconfiguredZero ∧ s.AtMostOneSelected ∧ s.NeverBitsZero ∧ s.UnregisteredLow ∧
  s.SequencerOk ∧ s.LinesOk

/-! ### The bytes of the commit under way -/

/-- The bytes taken since the latch lines last went low, after one more event. -/
def noteByte (sent : List (Byte × Nat)) (e : Nat × Event) : List (Byte × Nat) :=
  match e.2 with
  | .latchAll _ => []
  | .reset => []
  | .byte i b => sent ++ [(b, i)]
  | .accept _ => sent
  | .txIdle => sent
  | .latchRegistered _ => sent
  | .faultSample _ => sent
  | .respond _ _ => sent

/-- The bytes, each with its index, that the transport has taken since the latch lines last went low. -/
def sentBytes (trace : List (Nat × Event)) : List (Byte × Nat) := trace.foldl noteByte []

/-- The transfer of a commit so far: `PAYLOAD[0]`, `PAYLOAD[1]`, ... each exactly once, and the whole payload from
`S_DRAIN` on (43_commit_fsm.md R130, R143). -/
abbrev State.TransferInv (s : State) : Prop :=
  (s.state = .waitLow → sentBytes s.trace = []) ∧
  (s.state = .xfer → sentBytes s.trace = (s.payload.take s.ptr).zipIdx) ∧
  (s.state = .drain ∨ s.state = .latch ∨ s.state = .waitHigh ∨ s.state = .verify →
    sentBytes s.trace = s.payload.zipIdx)

end Sys2Proof.Machine
end

