-- ==== Sys2Proof/Certificates/Slice0/Obligations.lean ====
section
/-! DEFINITION. The statements for the provers. -/

open Sys2Proof Sys2Proof.Machine

/-! ### Encoding -/

/-- The worked encodings (30_encoding.md R78), both ways; the reserved word has no assembly and only decodes. -/
def Obligations.WorkedEncodings : Prop :=
  (encode (.addGroup 2) = 0x20004000 ∧ decode 0x20004000 = .addGroup 2) ∧
  (encode .clearAll = 0x40000000 ∧ decode 0x40000000 = .clearAll) ∧
  (encode (.clearGroup 1) = 0x60200000 ∧ decode 0x60200000 = .clearGroup 1) ∧
  (encode (.setChannel 1 1 5 0) = 0x80202500 ∧ decode 0x80202500 = .setChannel 1 1 5 0) ∧
  (encode (.setChannel 1 1 21 21) = 0x802035A8 ∧ decode 0x802035A8 = .setChannel 1 1 21 21) ∧
  (encode (.setChannel 1 1 19 20) = 0x802033A0 ∧ decode 0x802033A0 = .setChannel 1 1 19 20) ∧
  (encode (.readImage 1 2) = 0xA0204000 ∧ decode 0xA0204000 = .readImage 1 2) ∧
  decode 0xC0000000 = .reserved110

/-- Decode and encode agree: no bit of a well-formed command's operands is dropped (30_encoding.md R62, R77). -/
def Obligations.DecodeEncodeRoundTrip : Prop :=
  ∀ i : Instr, i.wf = true → decode (encode i) = i

/-- The fields of a command word (30_encoding.md R62, R63): each is the unsigned value of its bits, the opcode in bits
31:29 selects the command, and the command's operands are its fields. -/
def Obligations.FieldsAreTheirBits : Prop :=
  ∀ w : Word,
    ((opField w).toNat = w.toNat / 2 ^ 29 ∧ grpField w = w.toNat / 2 ^ 21 % 256 ∧
      crdField w = w.toNat / 2 ^ 13 % 256 ∧ countField w = w.toNat / 2 ^ 13 % 256 ∧
      posField w = w.toNat / 2 ^ 8 % 32 ∧ negField w = w.toNat / 2 ^ 3 % 32) ∧
    (w.toNat / 2 ^ 29 = 0 → decode w = .reserved000) ∧
    (w.toNat / 2 ^ 29 = 1 → decode w = .addGroup (w.toNat / 2 ^ 13 % 256)) ∧
    (w.toNat / 2 ^ 29 = 2 → decode w = .clearAll) ∧
    (w.toNat / 2 ^ 29 = 3 → decode w = .clearGroup (w.toNat / 2 ^ 21 % 256)) ∧
    (w.toNat / 2 ^ 29 = 4 → decode w = .setChannel (w.toNat / 2 ^ 21 % 256) (w.toNat / 2 ^ 13 % 256)
      (w.toNat / 2 ^ 8 % 32) (w.toNat / 2 ^ 3 % 32)) ∧
    (w.toNat / 2 ^ 29 = 5 → decode w = .readImage (w.toNat / 2 ^ 21 % 256) (w.toNat / 2 ^ 13 % 256)) ∧
    (w.toNat / 2 ^ 29 = 6 → decode w = .reserved110) ∧
    (w.toNat / 2 ^ 29 = 7 → decode w = .reserved111)

/-- Bits a command does not use are ignored (30_encoding.md R64): two words that agree on the used bits are the same
command and do the same in every state. -/
def Obligations.IgnoredBitsDoNotMatter : Prop :=
  ∀ w v : Word,
    (w &&& 0xE0000000 = 0x00000000 ∧ v &&& 0xE0000000 = w &&& 0xE0000000) ∨
    (w &&& 0xE0000000 = 0x20000000 ∧ v &&& 0xE01FE000 = w &&& 0xE01FE000) ∨
    (w &&& 0xE0000000 = 0x40000000 ∧ v &&& 0xE0000000 = w &&& 0xE0000000) ∨
    (w &&& 0xE0000000 = 0x60000000 ∧ v &&& 0xFFE00000 = w &&& 0xFFE00000) ∨
    (w &&& 0xE0000000 = 0x80000000 ∧ v &&& 0xFFFFFFF8 = w &&& 0xFFFFFFF8) ∨
    (w &&& 0xE0000000 = 0xA0000000 ∧ v &&& 0xFFFFE000 = w &&& 0xFFFFE000) ∨
    (w &&& 0xE0000000 = 0xC0000000 ∧ v &&& 0xE0000000 = w &&& 0xE0000000) ∨
    (w &&& 0xE0000000 = 0xE0000000 ∧ v &&& 0xE0000000 = w &&& 0xE0000000) →
    decode v = decode w ∧ ∀ s, exec (decode v) s = exec (decode w) s

/-- Encoding the command of a word gives the word back with its ignored bits 0 (30_encoding.md R64, R75), and every
word's command is well formed. -/
def Obligations.EncodeDecodeClearsIgnoredBits : Prop :=
  ∀ w : Word, (decode w).wf = true ∧
    encode (decode w) = w &&& (match w.toNat / 2 ^ 29 with
      | 1 => 0xE01FE000
      | 3 => 0xFFE00000
      | 4 => 0xFFFFFFF8
      | 5 => 0xFFFFE000
      | _ => 0xE0000000)

/-- Every 32 bits decode, and more than 32 are no command word (30_encoding.md R61). -/
def Obligations.EveryWordDecodes : Prop :=
  (∀ w : Word, decodeTableWord 32 w.toNat = some (decode w)) ∧
  ∀ nbits w, 32 < nbits → decodeBits nbits w = .error .tooLong

/-- The assembler writes the encoded word of each mnemonic whose operands fit and refuses the others
(30_encoding.md R75, R77). -/
def Obligations.AssemblerWritesTheEncodedWord : Prop :=
  ∀ i : Instr, (i.wf = true → assembleInstr i = .ok (encode i)) ∧ (i.wf = false → assembleInstr i = .error .outOfRange) ∧
    (∀ count, assembleNumbers "ADD_GROUP".toList [count] = assembleInstr (.addGroup count)) ∧
    assembleNumbers "CLEAR_ALL".toList [] = assembleInstr .clearAll ∧
    (∀ grp, assembleNumbers "CLEAR_GROUP".toList [grp] = assembleInstr (.clearGroup grp)) ∧
    (∀ grp crd pos neg,
      assembleNumbers "SET_CHANNEL".toList [grp, crd, pos, neg] = assembleInstr (.setChannel grp crd pos neg)) ∧
    ∀ grp crd, assembleNumbers "READ_IMAGE".toList [grp, crd] = assembleInstr (.readImage grp crd)

/-- The pseudo-instructions expand as tabled, are refused where their constraint fails, and never expand to an
unrecognised pair (30_encoding.md R76). -/
def Obligations.PseudoInstructionsExpandToRecognisedPairs : Prop :=
  (∀ grp crd p, expand (.setSe grp crd p) =
    if 1 ≤ p ∧ p ≤ 20 then .ok (.setChannel grp crd p 0) else .error .pseudoConstraint) ∧
  (∀ grp crd p, expand (.setDiff grp crd p) =
    if p % 2 = 1 ∧ 1 ≤ p ∧ p ≤ 19 then .ok (.setChannel grp crd p (p + 1)) else .error .pseudoConstraint) ∧
  (∀ grp crd, expand (.setCurrent grp crd) = .ok (.setChannel grp crd 21 0)) ∧
  ∀ q i, expand q = .ok i →
    ∃ grp crd p n, i = .setChannel grp crd p n ∧ (encodeChannel p n).2 ≠ .unrecognised

/-! ### The channel encoder -/

/-- The four patterns (40_channel_encoder.md R81, R82, R83, R84) with the table and index of R80: `T[idx(p)]` in `B0`
for pins 1..10 and in `B1` for pins 11..20. -/
def Obligations.EncoderFollowsPatternRules : Prop :=
  ∀ p n : Nat,
    (p = 21 → (encodeChannel p n).1 = packImage 0x00 0x02 0x00 ∧ kindCode (encodeChannel p n).2 = 1) ∧
    (p % 2 = 1 → 1 ≤ p → p ≤ 19 → n = p + 1 → ∃ t : Byte,
      ([0x80, 0x40, 0x10, 0x08, 0x04] : List Byte)[(p - (if p ≤ 10 then 0 else 10) - 1) / 2]? = some t ∧
      (encodeChannel p n).1 = (if p ≤ 10 then packImage t 0x00 0x10 else packImage 0x00 t 0x10) ∧
      kindCode (encodeChannel p n).2 = 2) ∧
    (n = 0 → 1 ≤ p → p ≤ 20 → ∃ t : Byte,
      ([0x80, 0x40, 0x10, 0x08, 0x04] : List Byte)[(p - (if p ≤ 10 then 0 else 10) - 1) / 2]? = some t ∧
      (encodeChannel p n).1 = (if p ≤ 10 then packImage t 0x00 (if p % 2 = 1 then 0x08 else 0x04)
        else packImage 0x00 t (if p % 2 = 1 then 0x08 else 0x04)) ∧
      kindCode (encodeChannel p n).2 = 3) ∧
    (p ≠ 21 → ¬ (p % 2 = 1 ∧ 1 ≤ p ∧ p ≤ 19 ∧ n = p + 1) → ¬ (n = 0 ∧ 1 ≤ p ∧ p ≤ 20) →
      (encodeChannel p n).1 = 0x000000 ∧ kindCode (encodeChannel p n).2 = 0)

/-- The encoder's output invariants (40_channel_encoder.md R87), for every pair of integers: the values of each byte,
the shapes of a non-zero image by kind, the bits that are always 0, and `kind = 0` exactly for the zero image. -/
def Obligations.EncoderOutputInvariants : Prop :=
  ∀ p n : Nat, ∃ b0 b1 b2 : Byte, (encodeChannel p n).1 = packImage b0 b1 b2 ∧
    b0 ∈ ([0x00, 0x80, 0x40, 0x10, 0x08, 0x04] : List Byte) ∧
    b1 ∈ ([0x00, 0x80, 0x40, 0x10, 0x08, 0x04, 0x02] : List Byte) ∧
    b2 ∈ ([0x00, 0x10, 0x08, 0x04] : List Byte) ∧
    ((encodeChannel p n).1 = 0 ∨
      ((encodeChannel p n).2 = .currentSense ∧ b0 = 0x00 ∧ b1 = 0x02 ∧ b2 = 0x00) ∨
      ((encodeChannel p n).2 = .differential ∧ b2 = 0x10 ∧
        ((b0 ∈ ([0x80, 0x40, 0x10, 0x08, 0x04] : List Byte) ∧ b1 = 0x00) ∨
          (b0 = 0x00 ∧ b1 ∈ ([0x80, 0x40, 0x10, 0x08, 0x04] : List Byte)))) ∨
      ((encodeChannel p n).2 = .singleEnded ∧ (b2 = 0x08 ∨ b2 = 0x04) ∧
        ((b0 ∈ ([0x80, 0x40, 0x10, 0x08, 0x04] : List Byte) ∧ b1 = 0x00) ∨
          (b0 = 0x00 ∧ b1 ∈ ([0x80, 0x40, 0x10, 0x08, 0x04] : List Byte))))) ∧
    (b0 &&& 0x23 = 0 ∧ b1 &&& 0x21 = 0 ∧ b2 &&& 0xE3 = 0) ∧
    (kindCode (encodeChannel p n).2 = 0 ↔ (encodeChannel p n).1 = 0)

/-- The counts over the 5-bit domain, and the distinct images over pins 0..21 by kind and in all (40_channel_encoder.md
R91). -/
def Obligations.EncoderCounts : Prop :=
  (∀ x ∈ [(Kind.currentSense, 32), (.differential, 10), (.singleEnded, 20), (.unrecognised, 962)],
    ((List.range 32).flatMap fun p => (List.range 32).map fun n => (encodeChannel p n).2).count x.1 = x.2) ∧
  (∀ x ∈ [(Kind.currentSense, 1), (.differential, 10), (.singleEnded, 20)],
    ((((List.range 22).flatMap fun p => (List.range 22).map fun n => encodeChannel p n).filter
      fun y => y.2 = x.1).map Prod.fst).dedup.length = x.2) ∧
  ((((List.range 22).flatMap fun p => (List.range 22).map fun n => encodeChannel p n).map Prod.fst).filter
    fun img => img ≠ 0).dedup.length = 31

/-! ### The commands in `S_EXEC` -/

/-- ADD_GROUP (42_stack_commands.md R107, 60_exceptions.md R154): ERR_CAPACITY with no effect where no slot is left or
the count is too large; otherwise the group is appended, its slots zeroed, and nothing else changes, no byte of another
slot among it. -/
def Obligations.AddGroupAppendsAGroup : Prop :=
  ∀ (s : State) (count : Nat),
    (s.groups = s.cfg.gMax ∨ s.cfg.cMax < count →
      exec (.addGroup count) s = .next { s with statusQ := 5, dataQ := 0, state := .resp }) ∧
    (s.Configured → s.groups ≠ s.cfg.gMax → count ≤ s.cfg.cMax →
      ∃ t, exec (.addGroup count) s = .next t ∧
        t = { s with
          img := t.img
          cardCount := s.cardCount.set s.groups (BitVec.ofNat 8 count)
          numGroups := BitVec.ofNat 8 (s.groups + 1)
          statusQ := 0, dataQ := BitVec.ofNat 32 (s.groups + 1), state := .resp } ∧
        t.groups = s.groups + 1 ∧ t.cards s.groups = count ∧ (∀ g, g ≠ s.groups → t.cards g = s.cards g) ∧
        (∀ c < s.cfg.cMax, t.image s.groups c = 0) ∧
        ∀ a, t.img.read a =
          if imgAddr s.groups 0 0 ≤ a ∧ a < imgAddr s.groups s.cfg.cMax 0 then 0 else s.img.read a)

/-- CLEAR_ALL (42_stack_commands.md R108): every image 0, provisional OK, the commit begun; nothing else changes. -/
def Obligations.ClearAllZeroesEveryImage : Prop :=
  ∀ s : State, s.img.wf → ∃ t, exec .clearAll s = .next t ∧
    t = { s with img := t.img, statusQ := 0, dataQ := 0, state := .unlatch } ∧
    (∀ g < s.cfg.gMax, ∀ c < s.cfg.cMax, t.image g c = 0) ∧
    ∀ a, t.img.read a =
      if ∃ g < s.cfg.gMax, imgAddr g 0 0 ≤ a ∧ a < imgAddr g s.cfg.cMax 0 then 0 else s.img.read a

/-- CLEAR_GROUP (42_stack_commands.md R109, 41_group_aggregator.md R95): ERR_GROUP with no effect for a group number out
of range; otherwise the group's images are 0, the commit begins, and nothing else changes. -/
def Obligations.ClearGroupZeroesOneGroup : Prop :=
  ∀ (s : State) (grp : Nat),
    (grp = 0 ∨ s.groups < grp →
      exec (.clearGroup grp) s = .next { s with statusQ := 3, dataQ := 0, state := .resp }) ∧
    (s.Configured → 1 ≤ grp → grp ≤ s.groups →
      ∃ t, exec (.clearGroup grp) s = .next t ∧
        t = { s with img := t.img, statusQ := 0, dataQ := 0, state := .unlatch } ∧
        (∀ c < s.cfg.cMax, t.image (grp - 1) c = 0) ∧
        ∀ a, t.img.read a =
          if imgAddr (grp - 1) 0 0 ≤ a ∧ a < imgAddr (grp - 1) s.cfg.cMax 0 then 0 else s.img.read a)

/-- SET_CHANNEL (42_stack_commands.md R110, 41_group_aggregator.md R96): ERR_GROUP, then ERR_CARD, each with no effect;
otherwise the addressed card takes `encode(pos, neg)`, every other card of the group 0, `kind` is the response data, the
commit begins, and nothing else changes. -/
def Obligations.SetChannelSelectsOneCard : Prop :=
  ∀ (s : State) (grp crd pos neg : Nat),
    (grp = 0 ∨ s.groups < grp →
      exec (.setChannel grp crd pos neg) s = .next { s with statusQ := 3, dataQ := 0, state := .resp }) ∧
    (1 ≤ grp → grp ≤ s.groups → crd = 0 ∨ s.cards (grp - 1) < crd →
      exec (.setChannel grp crd pos neg) s = .next { s with statusQ := 4, dataQ := 0, state := .resp }) ∧
    (s.Configured → 1 ≤ grp → grp ≤ s.groups → 1 ≤ crd → crd ≤ s.cards (grp - 1) →
      ∃ t, exec (.setChannel grp crd pos neg) s = .next t ∧
        t = { s with
          img := t.img, statusQ := 0, dataQ := (kindCode (encodeChannel pos neg).2).setWidth 32, state := .unlatch } ∧
        (∀ c < s.cfg.cMax, t.image (grp - 1) c = if c = crd - 1 then (encodeChannel pos neg).1 else 0) ∧
        ∀ a, t.img.read a =
          if imgAddr (grp - 1) (crd - 1) 0 ≤ a ∧ a < imgAddr (grp - 1) crd 0 then
            imageByte (encodeChannel pos neg).1 (a - imgAddr (grp - 1) (crd - 1) 0)
          else if imgAddr (grp - 1) 0 0 ≤ a ∧ a < imgAddr (grp - 1) s.cfg.cMax 0 then 0
          else s.img.read a)

/-- READ_IMAGE (42_stack_commands.md R111): ERR_GROUP, then ERR_CARD, each with no effect; otherwise the image,
zero-extended, is the response data and nothing else changes, no byte of memory among it. -/
def Obligations.ReadImageReturnsTheImage : Prop :=
  ∀ (s : State) (grp crd : Nat),
    (grp = 0 ∨ s.groups < grp →
      exec (.readImage grp crd) s = .next { s with statusQ := 3, dataQ := 0, state := .resp }) ∧
    (1 ≤ grp → grp ≤ s.groups → crd = 0 ∨ s.cards (grp - 1) < crd →
      exec (.readImage grp crd) s = .next { s with statusQ := 4, dataQ := 0, state := .resp }) ∧
    (s.Configured → 1 ≤ grp → grp ≤ s.groups → 1 ≤ crd → crd ≤ s.cards (grp - 1) →
      exec (.readImage grp crd) s = .next { s with
        statusQ := 0
        dataQ := 0#8 ++ (s.img.read (imgAddr (grp - 1) (crd - 1) 0) ++ s.img.read (imgAddr (grp - 1) (crd - 1) 1) ++
          s.img.read (imgAddr (grp - 1) (crd - 1) 2))
        state := .resp })

/-- The reserved opcodes answer ERR_OPCODE and do nothing else (42_stack_commands.md R112, 60_exceptions.md R151),
whatever their other bits. -/
def Obligations.ReservedOpcodesAnswerErrOpcode : Prop :=
  ∀ s : State,
    exec .reserved000 s = .next { s with statusQ := 2, dataQ := 0, state := .resp } ∧
    exec .reserved110 s = .next { s with statusQ := 2, dataQ := 0, state := .resp } ∧
    exec .reserved111 s = .next { s with statusQ := 2, dataQ := 0, state := .resp } ∧
    ∀ w : Word, w.toNat / 2 ^ 29 = 0 ∨ w.toNat / 2 ^ 29 = 6 ∨ w.toNat / 2 ^ 29 = 7 →
      exec (decode w) s = .next { s with statusQ := 2, dataQ := 0, state := .resp }

/-- The checks and their priority (42_stack_commands.md R105, R106): the first that fails decides the status, and where
none fails the command has its effect, to `S_UNLATCH` for a commit command and to `S_RESP` otherwise. -/
def Obligations.ChecksDecideInOrder : Prop :=
  ∀ (s : State) (w : Word), s.Configured →
    ∃ t, exec (decode w) s = .next t ∧
      (let op := w.toNat / 2 ^ 29
       let grp := w.toNat / 2 ^ 21 % 256
       let crd := w.toNat / 2 ^ 13 % 256
       if op = 0 ∨ op = 6 ∨ op = 7 then t = { s with statusQ := 2, dataQ := 0, state := .resp }
       else if (op = 3 ∨ op = 4 ∨ op = 5) ∧ ¬ (1 ≤ grp ∧ grp ≤ s.groups) then
         t = { s with statusQ := 3, dataQ := 0, state := .resp }
       else if (op = 4 ∨ op = 5) ∧ ¬ (1 ≤ crd ∧ crd ≤ s.cards (grp - 1)) then
         t = { s with statusQ := 4, dataQ := 0, state := .resp }
       else if op = 1 ∧ (s.groups = s.cfg.gMax ∨ s.cfg.cMax < crd) then
         t = { s with statusQ := 5, dataQ := 0, state := .resp }
       else t.statusQ = 0 ∧ t.state = if op = 1 ∨ op = 5 then .resp else .unlatch)

/-- `raise Error` is precise (60_exceptions.md R149): a command that ends `S_EXEC` with an error status has no effect
but its response. -/
def Obligations.ErrorsHaveNoOtherEffect : Prop :=
  ∀ (i : Instr) (s t : State), exec i s = .next t → t.statusQ ≠ 0 →
    (t.statusQ = 2 ∨ t.statusQ = 3 ∨ t.statusQ = 4 ∨ t.statusQ = 5) ∧
    t = { s with statusQ := t.statusQ, dataQ := 0, state := .resp }

/-- `S_EXEC` ends in the commit protocol exactly for CLEAR_ALL, CLEAR_GROUP and SET_CHANNEL that pass their checks, and
in the response for every other command and every error (42_stack_commands.md R116, 43_commit_fsm.md R120, R146). -/
def Obligations.OnlyCommitCommandsBeginTheProtocol : Prop :=
  ∀ (i : Instr) (s t : State), exec i s = .next t →
    (t.state = .unlatch ∨ t.state = .resp) ∧ (t.state = .unlatch ↔ commits i = true ∧ t.statusQ = 0)

/-- SET_CHANNEL of an unrecognised pair does what CLEAR_GROUP of the group does (42_stack_commands.md R114,
41_group_aggregator.md R101): the whole group is 0, and `kind = 0` is the response data. -/
def Obligations.UnrecognisedPairClearsTheGroup : Prop :=
  ∀ (s : State) (grp crd p n : Nat), s.Configured → 1 ≤ grp → grp ≤ s.groups → 1 ≤ crd → crd ≤ s.cards (grp - 1) →
    kindCode (encodeChannel p n).2 = 0 →
    ∃ t, exec (.setChannel grp crd p n) s = .next t ∧ exec (.clearGroup grp) s = .next t ∧ t.dataQ = 0 ∧
      ∀ c < s.cfg.cMax, t.image (grp - 1) c = 0

/-- CLEAR_ALL twice (42_stack_commands.md R115): the images and the payload of zeros are the same after each. -/
def Obligations.ClearAllIsIdempotent : Prop :=
  ∀ s : State, s.Configured → ∃ t u, exec .clearAll s = .next t ∧ exec .clearAll t = .next u ∧
    u.img = t.img ∧ u.len = t.len ∧ t.len = s.len ∧
    t.payload = List.replicate s.len 0 ∧ u.payload = List.replicate s.len 0

/-- `group_set` is one update of every slot of the group (41_group_aggregator.md R96), equal as memory to the loop
`IMG[g][c'] <- (encode(p, n).img if c' = c else 0)`. -/
def Obligations.GroupSetIsOneUpdate : Prop :=
  ∀ (m : Memory) (cMax g c p n : Nat), m.wf → c < cMax →
    groupSet cMax m g c p n =
      (List.range cMax).foldl (fun m c' => storeImage m g c' (if c' = c then (encodeChannel p n).1 else 0)) m

/-- A READ_IMAGE after a SET_CHANNEL returns the new image, and 0 for every other card of the group
(70_reset_and_hazards.md R169). -/
def Obligations.ReadAfterSetReturnsTheNewImage : Prop :=
  ∀ (s : State) (grp crd crd' p n : Nat), s.Configured → 1 ≤ grp → grp ≤ s.groups → 1 ≤ crd →
    crd ≤ s.cards (grp - 1) → 1 ≤ crd' → crd' ≤ s.cards (grp - 1) →
    ∃ t u, exec (.setChannel grp crd p n) s = .next t ∧ exec (.readImage grp crd') t = .next u ∧ u.statusQ = 0 ∧
      u.dataQ = (if crd' = crd then (encodeChannel p n).1 else 0).setWidth 32

/-! ### The payload -/

/-- `PAYLOAD` (20_memory.md R43, R44): its length is `LEN`, that of each group `3 * CARD_COUNT[g]`, and the byte at
`BASE(g) + 3c + k` is byte `k` of `IMG[g][c]`. -/
def Obligations.PayloadConcatenatesTheImages : Prop :=
  ∀ s : State, s.payload.length = s.len ∧ s.len = 3 * ((List.range s.groups).map s.cards).sum ∧
    (∀ g ≤ s.groups, s.base g = 3 * ((List.range g).map s.cards).sum) ∧
    ∀ g < s.groups, (s.groupPayload g).length = 3 * s.cards g ∧
      ∀ c < s.cards g, ∀ k < 3, s.payload[s.base g + 3 * c + k]? = some (imageByte (s.image g c) k)

/-- `MemRead` (20_memory.md R45): below `LEN` exactly one group owns an offset, and the byte is that of the owner's card
and the payload's; at or past `LEN` there is none. -/
def Obligations.MemReadIsThePayloadByte : Prop :=
  ∀ (s : State) (i : Nat),
    (i < s.len → ∃ g, (g < s.groups ∧ s.base g ≤ i ∧ i < s.base (g + 1)) ∧
      (∀ h < s.groups, s.base h ≤ i → i < s.base (h + 1) → h = g) ∧
      s.memRead i = some (imageByte (s.image g ((i - s.base g) / 3)) ((i - s.base g) % 3)) ∧
      s.payload[i]? = s.memRead i) ∧
    (s.len ≤ i → s.memRead i = none)

/-- A channel's image stands at payload offset `BASE(g) + 3c` once SET_CHANNEL is applied (20_memory.md R54). -/
def Obligations.ChannelImageAtItsPayloadOffset : Prop :=
  ∀ (s : State) (grp crd p n : Nat), s.Configured → 1 ≤ grp → grp ≤ s.groups → 1 ≤ crd →
    crd ≤ s.cards (grp - 1) → ∃ t, exec (.setChannel grp crd p n) s = .next t ∧
      ∀ k < 3, t.payload[s.base (grp - 1) + 3 * (crd - 1) + k]? = some (imageByte (encodeChannel p n).1 k)

/-! ### The FSM, one cycle -/

/-- A step in `S_EXEC` runs the command in `cmd_q`: for the word of any well-formed command, the step is its meaning and
then the passing of the edge (43_commit_fsm.md R120). -/
def Obligations.StepRunsTheDecodedCommand : Prop :=
  ∀ (s : State) (i : Instr), s.state = .exec → s.nextPins.rst = false →
    step s = afterEdge (exec (decode s.cmdQ) s) ∧
    (i.wf = true → s.cmdQ = encode i → step s = afterEdge (exec i s)) ∧
    ∀ t, exec (decode s.cmdQ) s = .next t →
      step s = .next { t with pins := s.pins.tail, cycle := s.cycle + 1 }

/-- `S_IDLE` is ready, accepts the offered command and changes nothing else (43_commit_fsm.md R119). -/
def Obligations.IdleAcceptsTheOfferedCommand : Prop :=
  ∀ s : State, s.state = .idle → s.nextPins.rst = false → (outputs s).cmdReady = true ∧
    (s.nextPins.cmdValid = true → step s = .next { s.ticks 1 with
      cmdQ := s.nextPins.cmdWord, state := .exec, trace := s.trace ++ [(s.cycle, .accept s.nextPins.cmdWord)] }) ∧
    (s.nextPins.cmdValid = false → step s = .next (s.ticks 1))

/-- `S_UNLATCH`: every latch bit goes to 0 at one edge, whatever it was, and the low delay is loaded
(43_commit_fsm.md R121). -/
def Obligations.UnlatchDrivesEveryLineLow : Prop :=
  ∀ s : State, s.state = .unlatch → s.nextPins.rst = false → s.cfg.Legal →
    step s = .next { s.ticks 1 with
      latchQ := List.replicate s.cfg.gMax false, cnt := s.cfg.dLowCycles, state := .waitLow
      trace := s.trace ++ [(s.cycle, .latchAll false)] }

/-- `S_XFER` (43_commit_fsm.md R123): with `LEN = 0` it goes to `S_DRAIN` with no byte; otherwise byte `ptr` is taken
where `tx_ready = 1`, the last one ending the transfer, and nothing changes where `tx_ready = 0`. -/
def Obligations.TransferTakesTheOfferedByte : Prop :=
  ∀ s : State, s.state = .xfer → s.nextPins.rst = false → s.cfg.Legal → s.len < 2 ^ s.cfg.ptrW →
    (s.len = 0 → step s = .next { s.ticks 1 with state := .drain }) ∧
    ∀ b, s.payload[s.ptr]? = some b →
      (s.nextPins.txReady = false → step s = .next (s.ticks 1)) ∧
      (s.nextPins.txReady = true → s.ptr + 1 = s.len →
        step s = .next { s.ticks 1 with state := .drain, trace := s.trace ++ [(s.cycle, .byte s.ptr b)] }) ∧
      (s.nextPins.txReady = true → s.ptr + 1 ≠ s.len →
        step s = .next { s.ticks 1 with ptr := s.ptr + 1, trace := s.trace ++ [(s.cycle, .byte s.ptr b)] })

/-- `S_DRAIN` waits for `tx_idle` (43_commit_fsm.md R124). -/
def Obligations.DrainWaitsForIdle : Prop :=
  ∀ s : State, s.state = .drain → s.nextPins.rst = false →
    (s.nextPins.txIdle = true →
      step s = .next { s.ticks 1 with state := .latch, trace := s.trace ++ [(s.cycle, .txIdle)] }) ∧
    (s.nextPins.txIdle = false → step s = .next (s.ticks 1))

/-- `S_LATCH`: at one edge the latch bit of every registered group goes to 1 and every other to 0, and the high delay is
loaded (43_commit_fsm.md R125). -/
def Obligations.LatchDrivesRegisteredLinesHigh : Prop :=
  ∀ s : State, s.state = .latch → s.nextPins.rst = false → s.cfg.Legal →
    ∃ t, step s = .next t ∧
      t = { s.ticks 1 with
        latchQ := t.latchQ, cnt := s.cfg.dHighCycles, state := .waitHigh
        trace := s.trace ++ [(s.cycle, .latchRegistered true)] } ∧
      t.latchQ.length = s.cfg.gMax ∧ ∀ g < s.cfg.gMax, t.latchQ[g]? = some (decide (g < s.groups))

/-- `S_VERIFY`: one fault sample decides the status; the images, the topology, the latch lines and the response data are
as they were, also after a FAULT (43_commit_fsm.md R127, 60_exceptions.md R155). -/
def Obligations.VerifySamplesTheFaultLineOnce : Prop :=
  ∀ s : State, s.state = .verify → s.nextPins.rst = false →
    step s = .next { s.ticks 1 with
      statusQ := if s.nextPins.faultOk then 0 else 1, state := .resp
      trace := s.trace ++ [(s.cycle, .faultSample s.nextPins.faultOk)] }

/-- `S_RESP` offers the response and holds it until it is taken (43_commit_fsm.md R128). -/
def Obligations.ResponseIsHeldUntilTaken : Prop :=
  ∀ s : State, s.state = .resp → s.nextPins.rst = false →
    ((outputs s).rspValid = true ∧ (outputs s).rspStatus = s.statusQ ∧ (outputs s).rspData = s.dataQ) ∧
    (s.nextPins.rspReady = true → step s = .next { s.ticks 1 with
      state := .idle, trace := s.trace ++ [(s.cycle, .respond s.statusQ s.dataQ)] }) ∧
    (s.nextPins.rspReady = false → step s = .next (s.ticks 1))

/-- Reset wins at every edge, in every state (10_state.md R16, R34, 70_reset_and_hazards.md R163): every state element
takes its reset value, and the parameters stay. What the edge does to the fields of the model's own is the model's choice:
the script of samples loses its first (log entry 3), and the trace is kept and gains a `reset` event at the counted edge
(log entry 4). -/
def Obligations.ResetWinsAtEveryEdge : Prop :=
  ∀ s : State, s.nextPins.rst = true → step s = .next
    { cfg := s.cfg, img := [], numGroups := 0, cardCount := List.replicate s.cfg.gMax 0, state := .idle, cmdQ := 0,
      cnt := 0, ptr := 0, latchQ := List.replicate s.cfg.gMax false, statusQ := 0, dataQ := 0,
      pins := s.pins.tail, cycle := s.cycle + 1, trace := s.trace ++ [(s.cycle, .reset)] }

/-- The outputs after a reset edge, every one that repeats it included (70_reset_and_hazards.md R162). -/
def Obligations.OutputsAfterReset : Prop :=
  ∀ s : State, s.nextPins.rst = true → ∃ t, step s = .next t ∧
    t = { State.resetWith s.cfg with pins := t.pins, cycle := t.cycle, trace := t.trace } ∧
    outputs t = { cmdReady := true, rspValid := false, rspStatus := 0, rspData := 0, txValid := false, txData := 0x00,
                  txLast := false, latchO := List.replicate s.cfg.gMax false }

/-- An unused state code has no step but reset: the model refuses it by name (93_implementation_defined.md I9; the
refusal is the model's choice, log entry 8), and a reset edge leads from it to the reset state. -/
def Obligations.UnusedStateCodesAreRefused : Prop :=
  ∀ (s : State) (k : Fin 6), s.state = .unused k →
    (s.nextPins.rst = false → step s = .refused (.unusedStateCode (BitVec.ofNat 4 (10 + k.val)))) ∧
    (s.nextPins.rst = true → ∃ t, step s = .next t ∧
      t = { State.resetWith s.cfg with pins := t.pins, cycle := t.cycle, trace := t.trace })

/-- The output ports in each state (43_commit_fsm.md R129). -/
def Obligations.OutputsByState : Prop :=
  ∀ s : State,
    ((outputs s).latchO = s.latchQ ∧ (outputs s).rspStatus = s.statusQ ∧ (outputs s).rspData = s.dataQ) ∧
    ((outputs s).cmdReady = true ↔ s.state = .idle) ∧ ((outputs s).rspValid = true ↔ s.state = .resp) ∧
    ((outputs s).txValid = true ↔ s.state = .xfer ∧ 0 < s.len) ∧
    ((outputs s).txValid = false → (outputs s).txData = 0 ∧ (outputs s).txLast = false) ∧
    ((outputs s).txValid = true → ∀ b, s.payload[s.ptr]? = some b →
      (outputs s).txData = b ∧ ((outputs s).txLast = true ↔ s.ptr + 1 = s.len))

/-! ### The FSM, rules over every step -/

/-- The write matrix (10_state.md R40): without reset, no other state writes an element. -/
def Obligations.WriteMatrix : Prop :=
  ∀ s t : State, step s = .next t → s.nextPins.rst = false →
    (t.img ≠ s.img → s.state = .exec ∧ ((∃ count, s.command = .addGroup count) ∨ s.command = .clearAll ∨
      (∃ grp, s.command = .clearGroup grp) ∨ ∃ grp crd pos neg, s.command = .setChannel grp crd pos neg)) ∧
    (t.numGroups ≠ s.numGroups ∨ t.cardCount ≠ s.cardCount → s.state = .exec ∧ ∃ count, s.command = .addGroup count) ∧
    (t.cmdQ ≠ s.cmdQ → s.state = .idle ∧ s.nextPins.cmdValid = true) ∧
    (t.cnt ≠ s.cnt → s.state = .unlatch ∨ s.state = .waitLow ∨ s.state = .latch ∨ s.state = .waitHigh) ∧
    (t.ptr ≠ s.ptr → (s.state = .waitLow ∧ s.cnt = 1 ∧ t.ptr = 0) ∨ s.state = .xfer) ∧
    (t.latchQ ≠ s.latchQ → s.state = .unlatch ∨ s.state = .latch) ∧
    (t.statusQ ≠ s.statusQ → s.state = .exec ∨ s.state = .verify) ∧
    (t.dataQ ≠ s.dataQ → s.state = .exec)

/-- The events of one step by state (43_commit_fsm.md R148, R130): the byte event is the payload's byte at `ptr`, and no
byte is taken outside `S_XFER`. -/
def Obligations.EventsByState : Prop :=
  ∀ s t : State, step s = .next t → s.nextPins.rst = false →
    t.trace = s.trace ++ (match s.state with
      | .idle => if s.nextPins.cmdValid then [(s.cycle, .accept s.nextPins.cmdWord)] else []
      | .exec => []
      | .unlatch => [(s.cycle, .latchAll false)]
      | .waitLow => []
      | .xfer => if s.nextPins.txReady then
          (match s.payload[s.ptr]? with
            | some b => [(s.cycle, .byte s.ptr b)]
            | none => [])
          else []
      | .drain => if s.nextPins.txIdle then [(s.cycle, .txIdle)] else []
      | .latch => [(s.cycle, .latchRegistered true)]
      | .waitHigh => []
      | .verify => [(s.cycle, .faultSample s.nextPins.faultOk)]
      | .resp => if s.nextPins.rspReady then [(s.cycle, .respond s.statusQ s.dataQ)] else []
      | .unused _ => [])

/-- Each input is read in its own state only (30_encoding.md R72, 43_commit_fsm.md R131, R134): two samples that agree on
`rst` and on the inputs the state reads give the same step. -/
def Obligations.InputsAreReadInTheirOwnState : Prop :=
  ∀ (s : State) (p q : Pins), p.rst = q.rst →
    (s.state = .idle → p.cmdValid = q.cmdValid ∧ (p.cmdValid = true → p.cmdWord = q.cmdWord)) →
    (s.state = .xfer → p.txReady = q.txReady) → (s.state = .drain → p.txIdle = q.txIdle) →
    (s.state = .verify → p.faultOk = q.faultOk) → (s.state = .resp → p.rspReady = q.rspReady) →
    step (s.withSample p) = step (s.withSample q)

/-- The block passes whole bytes: no step and no output port depends on `WIRE_BIT_ORDER` (20_memory.md R48), and no step
changes a parameter. -/
def Obligations.WireBitOrderIsNotRead : Prop :=
  ∀ (s : State) (o : BitOrder),
    outputs { s with cfg := { s.cfg with wireBitOrder := o } } = outputs s ∧
    (∀ t, step s = .next t → t.cfg = s.cfg ∧
      step { s with cfg := { s.cfg with wireBitOrder := o } } =
        .next { t with cfg := { t.cfg with wireBitOrder := o } }) ∧
    (∀ f, step s = .fault f → step { s with cfg := { s.cfg with wireBitOrder := o } } = .fault f) ∧
    (∀ r, step s = .refused r → step { s with cfg := { s.cfg with wireBitOrder := o } } = .refused r)

/-- An offered byte stays offered, unchanged, until it is taken (43_commit_fsm.md R130). -/
def Obligations.OfferIsStableUntilTaken : Prop :=
  ∀ s : State, s.SequencerOk → (outputs s).txValid = true → s.nextPins.rst = false → s.nextPins.txReady = false →
    ∃ t, step s = .next t ∧ (outputs t).txValid = true ∧ (outputs t).txData = (outputs s).txData ∧
      (outputs t).txLast = (outputs s).txLast

/-- The waits are unbounded (43_commit_fsm.md R139): for every `n`, `n` edges without reset and without `tx_ready` in
`S_XFER` with a byte offered, without `tx_idle` in `S_DRAIN`, or without `rsp_ready` in `S_RESP`, leave the block where
it was. -/
def Obligations.WaitsAreUnbounded : Prop :=
  ∀ (n : Nat) (s : State), s.NoReset n →
    (s.state = .xfer ∧ s.ptr < s.len ∧ (∀ k < n, (s.pinsAt k).txReady = false)) ∨
    (s.state = .drain ∧ ∀ k < n, (s.pinsAt k).txIdle = false) ∨
    (s.state = .resp ∧ ∀ k < n, (s.pinsAt k).rspReady = false) →
    runSteps n s = .next (s.ticks n)

/-- Only defined status codes are produced (30_encoding.md R70: 6 and 7 never), and FAULT only by `S_VERIFY`
(60_exceptions.md R155). -/
def Obligations.StatusCodesStayDefined : Prop :=
  ∀ s t : State, step s = .next t →
    (s.statusQ.toNat ≤ 5 → t.statusQ.toNat ≤ 5) ∧
    (t.statusQ = 1 → s.statusQ ≠ 1 → s.state = .verify ∧ s.nextPins.faultOk = false)

/-! ### The FSM, delays and whole commands -/

/-- The low delay (43_commit_fsm.md R122, R135), under every environment without reset: from `S_UNLATCH`, `S_WAIT_LOW`
is occupied for exactly `D_LOW_CYCLES` cycles with every line low, which is at least 40 ms, and `S_XFER` begins with
`ptr = 0`. In the 40 ms clause `F_CLK_HZ` is a whole number of Hz, which is the model's choice (log entry 15). -/
def Obligations.LowDelayIsExact : Prop :=
  ∀ s : State, s.cfg.Legal → s.state = .unlatch → s.NoReset (s.cfg.dLowCycles + 1) →
    40 * s.cfg.fClkHz ≤ 1000 * s.cfg.dLowCycles ∧
    (∀ k < s.cfg.dLowCycles, ∃ t, runSteps (k + 1) s = .next t ∧ t.state = .waitLow ∧
      t.latchQ = List.replicate s.cfg.gMax false) ∧
    runSteps (s.cfg.dLowCycles + 1) s = .next { s.ticks (s.cfg.dLowCycles + 1) with
      latchQ := List.replicate s.cfg.gMax false, cnt := 1, ptr := 0, state := .xfer
      trace := s.trace ++ [(s.cycle, .latchAll false)] }

/-- The high delay and the sample (43_commit_fsm.md R126, R136), under every environment without reset: from `S_LATCH`,
`S_WAIT_HIGH` is occupied for exactly `D_HIGH_CYCLES` cycles, at least 5 ms, and the fault line is sampled
`D_HIGH_CYCLES + 1` edges after the lines rose. In the 5 ms clause `F_CLK_HZ` is a whole number of Hz, which is the
model's choice (log entry 15). -/
def Obligations.HighDelayThenOneSample : Prop :=
  ∀ s : State, s.cfg.Legal → s.state = .latch → s.NoReset (s.cfg.dHighCycles + 2) →
    5 * s.cfg.fClkHz ≤ 1000 * s.cfg.dHighCycles ∧
    (∀ k < s.cfg.dHighCycles, ∃ t, runSteps (k + 1) s = .next t ∧ t.state = .waitHigh) ∧
    runSteps (s.cfg.dHighCycles + 2) s = .next { s.ticks (s.cfg.dHighCycles + 2) with
      latchQ := s.registeredLatch, cnt := 1, state := .resp
      statusQ := if (s.pinsAt (s.cfg.dHighCycles + 1)).faultOk then 0 else 1
      trace := s.trace ++ [(s.cycle, .latchRegistered true),
        (s.cycle + s.cfg.dHighCycles + 1, .faultSample (s.pinsAt (s.cfg.dHighCycles + 1)).faultOk)] }

/-- A command that does not commit (43_commit_fsm.md R146, R138): ADD_GROUP, READ_IMAGE, the reserved opcodes and every
error are accepted, executed and answered in three edges, with no latch edge, no byte and no fault sample. -/
def Obligations.NonCommitCommandTakesThreeEdges : Prop :=
  ∀ (s e : State) (w : Word), s.state = .idle → s.NoReset 3 → (s.pinsAt 0).cmdValid = true →
    (s.pinsAt 0).cmdWord = w → (s.pinsAt 2).rspReady = true →
    exec (decode w) { s.ticks 1 with
      cmdQ := w, state := .exec, trace := s.trace ++ [(s.cycle, .accept w)] } = .next e →
    commits (decode w) = false ∨ e.statusQ ≠ 0 →
    runSteps 3 s = .next { e with
      state := .idle, pins := s.pins.drop 3, cycle := s.cycle + 3
      trace := s.trace ++ [(s.cycle, .accept w), (s.cycle + 2, .respond e.statusQ e.dataQ)] } ∧
    e.latchQ = s.latchQ

/-- One whole commit command with an environment that never stalls (43_commit_fsm.md R138, R147, R148): it is answered
`D_LOW_CYCLES + D_HIGH_CYCLES + max(LEN, 1) + 6` edges after its acceptance, with exactly the trace of R148, each event
at its edge; the images and the topology are those after `S_EXEC`, and the lines of the registered groups are high. -/
def Obligations.CommitCommandRunsTheProtocol : Prop :=
  ∀ (s e : State) (w : Word) (n m : Nat), s.BlockInv → s.state = .idle → (s.pinsAt 0).cmdValid = true →
    (s.pinsAt 0).cmdWord = w →
    exec (decode w) { s.ticks 1 with
      cmdQ := w, state := .exec, trace := s.trace ++ [(s.cycle, .accept w)] } = .next e →
    commits (decode w) = true → e.statusQ = 0 →
    m = max e.len 1 → n = s.cfg.dLowCycles + s.cfg.dHighCycles + m + 6 → s.NoReset (n + 1) →
    (∀ k ≤ n, (s.pinsAt k).txReady = true ∧ (s.pinsAt k).txIdle = true ∧ (s.pinsAt k).rspReady = true) →
    runSteps (n + 1) s = .next { e with
      state := .idle, cnt := 1, ptr := e.len - 1, latchQ := e.registeredLatch
      statusQ := if (s.pinsAt (n - 1)).faultOk then 0 else 1
      pins := s.pins.drop (n + 1), cycle := s.cycle + n + 1
      trace := s.trace ++ [(s.cycle, .accept w), (s.cycle + 2, .latchAll false)] ++
        e.payload.zipIdx.map (fun x => (s.cycle + s.cfg.dLowCycles + 3 + x.2, Event.byte x.2 x.1)) ++
        [(s.cycle + s.cfg.dLowCycles + m + 3, .txIdle),
          (s.cycle + s.cfg.dLowCycles + m + 4, .latchRegistered true),
          (s.cycle + n - 1, .faultSample (s.pinsAt (n - 1)).faultOk),
          (s.cycle + n, .respond (if (s.pinsAt (n - 1)).faultOk then 0 else 1) e.dataQ)] }

/-! ### Invariants -/

/-- THE BLOCK NEVER STOPS AND KEEPS ITS INVARIANT: from every state that meets `BlockInv`, under every input sample, the
step answers a next state that meets it (10_state.md R20, R39, 41_group_aggregator.md R99, 60_exceptions.md R157,
43_commit_fsm.md R142). -/
def Obligations.EveryStepKeepsTheBlockInvariant : Prop :=
  ∀ s : State, s.BlockInv → ∃ t, step s = .next t ∧ t.BlockInv

/-- The reset state of every legal build meets the invariants (10_state.md R34), and so does `State.reset`. -/
def Obligations.ResetMeetsTheInvariants : Prop :=
  (∀ c : Params, c.Legal → (State.resetWith c).BlockInv ∧ (State.resetWith c).TransferInv) ∧
  State.reset.BlockInv ∧ State.reset.TransferInv

/-- The transfer sends the payload, whole and in order (43_commit_fsm.md R130, R143): under every environment, the bytes
taken since the lines went low are `PAYLOAD[0..ptr)` in `S_XFER` and all of `PAYLOAD` from `S_DRAIN` on, so whenever the
lines rise exactly the payload has been taken, each byte once. -/
def Obligations.EveryStepKeepsTheTransferInvariant : Prop :=
  ∀ s t : State, s.BlockInv → s.TransferInv → step s = .next t → t.TransferInv

/-- Mutual exclusion is kept by every step (41_group_aggregator.md R99). -/
def Obligations.EveryStepKeepsMutualExclusion : Prop :=
  ∀ s t : State, s.Configured → s.AtMostOneSelected → step s = .next t → t.AtMostOneSelected

/-- Slots outside the configured topology stay 0 (10_state.md R20). -/
def Obligations.EveryStepKeepsUnconfiguredSlotsZero : Prop :=
  ∀ s t : State, s.Configured → s.UnconfiguredZero → step s = .next t → t.UnconfiguredZero

/-- The latch bits of unregistered groups stay 0 (10_state.md R39). -/
def Obligations.EveryStepKeepsUnregisteredLinesLow : Prop :=
  ∀ s t : State, s.Configured → s.UnregisteredLow → step s = .next t → t.UnregisteredLow

/-- The image bits marked "never" stay 0 in every image (10_state.md R19). -/
def Obligations.EveryStepKeepsNeverBitsZero : Prop :=
  ∀ s t : State, s.Configured → s.NeverBitsZero → step s = .next t → t.NeverBitsZero

/-- The image file keeps its canonical form, so that equal files are equal data (the model's form, log entry 5). -/
def Obligations.EveryStepKeepsMemoryCanonical : Prop :=
  ∀ s t : State, s.img.wf → step s = .next t → t.img.wf

/-- The registers keep the shape of the build: the counts stay within `G_MAX` and `C_MAX` (10_state.md R21, R22, R23). -/
def Obligations.EveryStepKeepsTheConfiguration : Prop :=
  ∀ s t : State, s.Configured → step s = .next t → t.Configured

/-- After reset (70_reset_and_hazards.md R166), as long as images and topology are at their reset values: ADD_GROUP of at
most `C_MAX` cards registers group 1, and every other command leaves the topology. Every CLEAR_GROUP, SET_CHANNEL and
READ_IMAGE gives ERR_GROUP, CLEAR_ALL begins a commit of no bytes and no latch line, and a reserved opcode or an ADD_GROUP
of more cards gives its error, each with no other effect. -/
def Obligations.AfterResetOnlyAddGroupChangesTheTopology : Prop :=
  ∀ s : State, s.Configured → s.img = [] → s.numGroups = 0 → s.cardCount = List.replicate s.cfg.gMax 0 →
    (∀ grp crd pos neg,
      exec (.clearGroup grp) s = .next { s with statusQ := 3, dataQ := 0, state := .resp } ∧
      exec (.setChannel grp crd pos neg) s = .next { s with statusQ := 3, dataQ := 0, state := .resp } ∧
      exec (.readImage grp crd) s = .next { s with statusQ := 3, dataQ := 0, state := .resp }) ∧
    (∃ t, exec .clearAll s = .next t ∧ t = { s with statusQ := 0, dataQ := 0, state := .unlatch } ∧
      t.numGroups = 0 ∧ t.cardCount = List.replicate s.cfg.gMax 0 ∧ t.img = [] ∧
      t.payload = [] ∧ t.registeredLatch = List.replicate s.cfg.gMax false) ∧
    (∀ i ∈ [Instr.reserved000, .reserved110, .reserved111],
      exec i s = .next { s with statusQ := 2, dataQ := 0, state := .resp }) ∧
    (∀ count > s.cfg.cMax, exec (.addGroup count) s = .next { s with statusQ := 5, dataQ := 0, state := .resp }) ∧
    ∀ count ≤ s.cfg.cMax, ∃ t, exec (.addGroup count) s = .next t ∧
      t = { s with
        img := t.img, cardCount := (List.replicate s.cfg.gMax 0).set 0 (BitVec.ofNat 8 count), numGroups := 1
        statusQ := 0, dataQ := 1, state := .resp } ∧
      t.groups = 1 ∧ t.cards 0 = count ∧ ∀ a, t.img.read a = 0
end

