-- ==== Sys2Proof/Laws/Memory.lean ====
section
/-! SUPPORT. The image file as memory: reads after writes, the canonical form, equality of canonical memories, and
images as three bytes. -/

namespace Sys2Proof.Machine

/-! ### One byte -/

@[simp] theorem Memory.wf_nil : Memory.wf [] := by simp [Memory.wf]

@[simp] theorem Memory.read_nil (a : Nat) : Memory.read [] a = 0 := rfl

theorem Memory.wf_cons {x : Host.Cell} {m : Memory} :
    Memory.wf (x :: m) ↔ (∀ y ∈ m, x.1 < y.1) ∧ x.2 ≠ Memory.unlisted ∧ Memory.wf m := by
  simp only [Memory.wf, List.pairwise_cons, List.mem_cons, forall_eq_or_imp]
  tauto

/-- An address below every listed one reads as unlisted. -/
theorem Memory.read_of_lt {m : Memory} {a : Nat} (h : ∀ y ∈ m, a < y.1) : m.read a = 0 := by
  induction m with
  | nil => rfl
  | cons x m ih =>
    have hx : a < x.1 := h x (by simp)
    rw [Memory.read, if_neg (by omega)]
    exact ih fun y hy => h y (by simp [hy])

/-- The addresses a write leaves listed are those listed before and its own. -/
theorem Memory.mem_write {m : Memory} {a : Nat} {b : Byte} {y : Host.Cell} (h : y ∈ m.write a b) :
    y ∈ m ∨ y.1 = a := by
  induction m with
  | nil =>
    rw [Memory.write] at h
    split at h <;> simp_all
  | cons x m ih =>
    rw [Memory.write] at h
    split at h
    · rcases List.mem_cons.1 h with rfl | h
      · exact .inl (by simp)
      · exact (ih h).imp (by simp_all) id
    · split at h
      · split at h <;> aesop
      · split at h <;> aesop

/-- A write keeps the canonical form. -/
theorem Memory.write_wf {m : Memory} (h : m.wf) (a : Nat) (b : Byte) : (m.write a b).wf := by
  induction m with
  | nil =>
    rw [Memory.write]
    split
    · exact Memory.wf_nil
    · simp_all [Memory.wf]
  | cons x m ih =>
    obtain ⟨hlt, hx, hm⟩ := Memory.wf_cons.1 h
    rw [Memory.write]
    split
    next hk =>
      refine Memory.wf_cons.2 ⟨fun y hy => ?_, hx, ih hm⟩
      rcases Memory.mem_write hy with h' | h'
      · exact hlt y h'
      · omega
    next hk =>
      split
      next hka =>
        split
        · exact hm
        · exact Memory.wf_cons.2 ⟨fun y hy => hka ▸ hlt y hy, ‹_›, hm⟩
      next hka =>
        split
        · exact h
        · refine Memory.wf_cons.2 ⟨fun y hy => ?_, ‹_›, h⟩
          rcases List.mem_cons.1 hy with rfl | hy
          · show a < _
            omega
          · have := hlt y hy
            show a < _
            omega

/-- Reading one byte after writing one. -/
theorem Memory.read_write {m : Memory} (h : m.wf) (a a' : Nat) (b : Byte) :
    (m.write a b).read a' = if a' = a then b else m.read a' := by
  induction m with
  | nil =>
    rw [Memory.write]
    split
    next hb => simp only [Memory.read, hb, ite_self]
    next hb => by_cases ha : a = a' <;> simp [Memory.read, ha, eq_comm]
  | cons x m ih =>
    obtain ⟨hlt, hx, hm⟩ := Memory.wf_cons.1 h
    rw [Memory.write]
    split
    next hk =>
      simp only [Memory.read]
      split
      next hxa => rw [if_neg (by omega)]
      next hxa => exact ih hm
    next hk =>
      split
      next hka =>
        split
        next hb =>
          split
          next haa =>
            rw [Memory.read_of_lt (fun y hy => by have := hlt y hy; omega), hb]; rfl
          next haa => rw [Memory.read, if_neg (by omega)]
        next hb =>
          by_cases ha : a = a' <;> simp [Memory.read, ha, hka, eq_comm]
      next hka =>
        have hlow : Memory.read (x :: m) a = 0 := Memory.read_of_lt fun y hy => by
          rcases List.mem_cons.1 hy with rfl | hy
          · omega
          · have := hlt y hy; omega
        split
        next hb =>
          split
          next haa => rw [haa, hlow, hb]; rfl
          next haa => rfl
        next hb =>
          by_cases ha : a = a' <;> simp [Memory.read, ha, eq_comm]

/-- Canonical memories that read alike are equal. -/
theorem Memory.ext_read {m m' : Memory} (h : m.wf) (h' : m'.wf) (hr : ∀ a, m.read a = m'.read a) : m = m' := by
  induction m generalizing m' with
  | nil =>
    cases m' with
    | nil => rfl
    | cons y m' =>
      have := hr y.1
      simp only [Memory.read, if_pos] at this
      exact absurd this.symm (Memory.wf_cons.1 h').2.1
  | cons x m ih =>
    obtain ⟨hlt, hx, hm⟩ := Memory.wf_cons.1 h
    cases m' with
    | nil =>
      have := hr x.1
      simp only [Memory.read, if_pos] at this
      exact absurd this hx
    | cons y m' =>
      obtain ⟨hlt', hy, hm'⟩ := Memory.wf_cons.1 h'
      have low : ∀ {z z' : Host.Cell} {l l' : Memory}, (∀ u ∈ l', z'.1 < u.1) → z.2 ≠ Memory.unlisted →
          Memory.read (z :: l) z.1 = Memory.read (z' :: l') z.1 → ¬ z.1 < z'.1 := by
        intro z z' l l' hl hz he hzz
        rw [Memory.read_of_lt (m := z' :: l') (a := z.1) (fun u hu => by
          rcases List.mem_cons.1 hu with rfl | hu
          · exact hzz
          · have := hl u hu; omega)] at he
        simp only [Memory.read, if_pos] at he
        exact hz he
      have e1 : x.1 = y.1 := by
        have h1 := low hlt' hx (hr x.1)
        have h2 := low hlt hy (hr y.1).symm
        omega
      have e2 : x.2 = y.2 := by
        have := hr x.1
        simpa [Memory.read, e1] using this
      have hxy : x = y := Prod.ext e1 e2
      subst hxy
      congr 1
      refine ih hm hm' fun a => ?_
      by_cases ha : x.1 = a
      · rw [Memory.read_of_lt (fun u hu => ha ▸ hlt u hu), Memory.read_of_lt (fun u hu => ha ▸ hlt' u hu)]
      · simpa [Memory.read, ha] using hr a

/-! ### Images -/

@[simp] theorem imageByte_packImage_zero (b0 b1 b2 : Byte) : imageByte (packImage b0 b1 b2) 0 = b0 := by
  apply BitVec.eq_of_getLsbD_eq
  intro i hi
  simp only [imageByte, packImage, BitVec.getLsbD_append, BitVec.getLsbD_extractLsb', hi, decide_true, Bool.true_and]
  rw [if_neg (by omega), if_neg (by omega)]
  congr 1
  omega

@[simp] theorem imageByte_packImage_one (b0 b1 b2 : Byte) : imageByte (packImage b0 b1 b2) 1 = b1 := by
  apply BitVec.eq_of_getLsbD_eq
  intro i hi
  simp only [imageByte, packImage, BitVec.getLsbD_append, BitVec.getLsbD_extractLsb', hi, decide_true, Bool.true_and]
  rw [if_neg (by omega), if_pos (by omega)]
  congr 1
  omega

@[simp] theorem imageByte_packImage_two (b0 b1 b2 : Byte) : imageByte (packImage b0 b1 b2) 2 = b2 := by
  apply BitVec.eq_of_getLsbD_eq
  intro i hi
  simp only [imageByte, packImage, BitVec.getLsbD_append, BitVec.getLsbD_extractLsb', hi, decide_true, Bool.true_and]
  rw [if_pos (by omega)]
  congr 1
  omega

/-- An image is its three bytes. -/
theorem packImage_imageByte (v : Image) : packImage (imageByte v 0) (imageByte v 1) (imageByte v 2) = v := by
  apply BitVec.eq_of_getLsbD_eq
  intro i hi
  simp only [imageByte, packImage, BitVec.getLsbD_append, BitVec.getLsbD_extractLsb']
  split
  · next h => simp [h]
  · split
    · next h h' => simp [h', show 8 + (i - 8) = i by omega]
    · next h h' => simp [show i - 8 - 8 < 8 by omega, show 16 + (i - 8 - 8) = i by omega]

@[simp] theorem imageByte_zero (k : Nat) : imageByte 0 k = 0 := by simp [imageByte]

/-- Reading one byte after storing an image. -/
theorem read_storeImage {m : Memory} (h : m.wf) (g c : Nat) (v : Image) (a : Nat) :
    (storeImage m g c v).read a =
      if imgAddr g c 0 ≤ a ∧ a < imgAddr g (c + 1) 0 then imageByte v (a - imgAddr g c 0) else m.read a := by
  simp only [storeImage]
  rw [Memory.read_write (Memory.write_wf (Memory.write_wf h _ _) _ _), Memory.read_write (Memory.write_wf h _ _),
    Memory.read_write h]
  by_cases h2 : a = imgAddr g c 2
  · rw [if_pos h2, if_pos (by simp only [imgAddr] at *; omega)]
    congr 1
    simp only [imgAddr] at *
    omega
  · rw [if_neg h2]
    by_cases h1 : a = imgAddr g c 1
    · rw [if_pos h1, if_pos (by simp only [imgAddr] at *; omega)]
      congr 1
      simp only [imgAddr] at *
      omega
    · rw [if_neg h1]
      by_cases h0 : a = imgAddr g c 0
      · rw [if_pos h0, if_pos (by simp only [imgAddr] at *; omega)]
        congr 1
        omega
      · rw [if_neg h0, if_neg (by simp only [imgAddr] at *; omega)]

/-- Storing an image keeps the canonical form. -/
theorem storeImage_wf {m : Memory} (h : m.wf) (g c : Nat) (v : Image) : (storeImage m g c v).wf :=
  Memory.write_wf (Memory.write_wf (Memory.write_wf h _ _) _ _) _ _

/-- Storing an image lists no address but its own three. -/
theorem mem_storeImage {m : Memory} {g c : Nat} {v : Image} {y : Host.Cell} (h : y ∈ storeImage m g c v) :
    y ∈ m ∨ y.1 / 3 = 256 * g + c := by
  simp only [storeImage] at h
  rcases Memory.mem_write h with h | h
  · rcases Memory.mem_write h with h | h
    · rcases Memory.mem_write h with h | h
      · exact .inl h
      · simp only [imgAddr] at h; omega
    · simp only [imgAddr] at h; omega
  · simp only [imgAddr] at h; omega

/-- Images are equal where their bytes read alike. -/
theorem loadImage_congr {m m' : Memory} {g c : Nat}
    (h : ∀ k < 3, m.read (imgAddr g c k) = m'.read (imgAddr g c k)) : loadImage m g c = loadImage m' g c := by
  simp [loadImage, h 0, h 1, h 2]

/-- Byte `k` of `IMG[g][c]` is the byte at its address. -/
theorem imageByte_loadImage (m : Memory) (g c k : Nat) (h : k < 3) :
    imageByte (loadImage m g c) k = m.read (imgAddr g c k) := by
  match k, h with
  | 0, _ => simp [loadImage]
  | 1, _ => simp [loadImage]
  | 2, _ => simp [loadImage]

/-- The image stored is the image read. -/
theorem loadImage_storeImage_same {m : Memory} (h : m.wf) (g c : Nat) (v : Image) :
    loadImage (storeImage m g c v) g c = v := by
  have byte : ∀ k < 3, (storeImage m g c v).read (imgAddr g c k) = imageByte v k := fun k hk => by
    rw [read_storeImage h, if_pos (by simp only [imgAddr]; omega)]
    congr 1
    simp only [imgAddr]
    omega
  rw [loadImage, byte 0 (by omega), byte 1 (by omega), byte 2 (by omega), packImage_imageByte]

/-- Another slot's image is untouched by a store. -/
theorem loadImage_storeImage_other {m : Memory} (h : m.wf) {g c g' c' : Nat} (v : Image) (hc : c < 256)
    (hc' : c' < 256) (hne : ¬ (g' = g ∧ c' = c)) : loadImage (storeImage m g c v) g' c' = loadImage m g' c' := by
  apply loadImage_congr
  intro k hk
  rw [read_storeImage h, if_neg]
  simp only [imgAddr]
  omega

end Sys2Proof.Machine
end

