-- ==== Sys2Proof/Laws/State.lean ====
section
/-! SUPPORT. One lemma per field for each named update of the state, true by rfl. -/

namespace Sys2Proof.Machine

/-! `raise Error` writes `status_q`, `data_q` and `state` only. -/

@[simp] theorem State.errorResponse_cfg (s : State) (code : Status) : (s.errorResponse code).cfg = s.cfg := rfl
@[simp] theorem State.errorResponse_img (s : State) (code : Status) : (s.errorResponse code).img = s.img := rfl
@[simp] theorem State.errorResponse_numGroups (s : State) (code : Status) : (s.errorResponse code).numGroups = s.numGroups := rfl
@[simp] theorem State.errorResponse_cardCount (s : State) (code : Status) : (s.errorResponse code).cardCount = s.cardCount := rfl
@[simp] theorem State.errorResponse_state (s : State) (code : Status) : (s.errorResponse code).state = .resp := rfl
@[simp] theorem State.errorResponse_cmdQ (s : State) (code : Status) : (s.errorResponse code).cmdQ = s.cmdQ := rfl
@[simp] theorem State.errorResponse_cnt (s : State) (code : Status) : (s.errorResponse code).cnt = s.cnt := rfl
@[simp] theorem State.errorResponse_ptr (s : State) (code : Status) : (s.errorResponse code).ptr = s.ptr := rfl
@[simp] theorem State.errorResponse_latchQ (s : State) (code : Status) : (s.errorResponse code).latchQ = s.latchQ := rfl
@[simp] theorem State.errorResponse_statusQ (s : State) (code : Status) : (s.errorResponse code).statusQ = statusCode code := rfl
@[simp] theorem State.errorResponse_dataQ (s : State) (code : Status) : (s.errorResponse code).dataQ = 0 := rfl
@[simp] theorem State.errorResponse_pins (s : State) (code : Status) : (s.errorResponse code).pins = s.pins := rfl
@[simp] theorem State.errorResponse_cycle (s : State) (code : Status) : (s.errorResponse code).cycle = s.cycle := rfl
@[simp] theorem State.errorResponse_trace (s : State) (code : Status) : (s.errorResponse code).trace = s.trace := rfl

/-! A response without commit writes `status_q`, `data_q` and `state` only. -/

@[simp] theorem State.okResponse_cfg (s : State) (data : Word) : (s.okResponse data).cfg = s.cfg := rfl
@[simp] theorem State.okResponse_img (s : State) (data : Word) : (s.okResponse data).img = s.img := rfl
@[simp] theorem State.okResponse_numGroups (s : State) (data : Word) : (s.okResponse data).numGroups = s.numGroups := rfl
@[simp] theorem State.okResponse_cardCount (s : State) (data : Word) : (s.okResponse data).cardCount = s.cardCount := rfl
@[simp] theorem State.okResponse_state (s : State) (data : Word) : (s.okResponse data).state = .resp := rfl
@[simp] theorem State.okResponse_cmdQ (s : State) (data : Word) : (s.okResponse data).cmdQ = s.cmdQ := rfl
@[simp] theorem State.okResponse_cnt (s : State) (data : Word) : (s.okResponse data).cnt = s.cnt := rfl
@[simp] theorem State.okResponse_ptr (s : State) (data : Word) : (s.okResponse data).ptr = s.ptr := rfl
@[simp] theorem State.okResponse_latchQ (s : State) (data : Word) : (s.okResponse data).latchQ = s.latchQ := rfl
@[simp] theorem State.okResponse_statusQ (s : State) (data : Word) : (s.okResponse data).statusQ = statusCode .ok := rfl
@[simp] theorem State.okResponse_dataQ (s : State) (data : Word) : (s.okResponse data).dataQ = data := rfl
@[simp] theorem State.okResponse_pins (s : State) (data : Word) : (s.okResponse data).pins = s.pins := rfl
@[simp] theorem State.okResponse_cycle (s : State) (data : Word) : (s.okResponse data).cycle = s.cycle := rfl
@[simp] theorem State.okResponse_trace (s : State) (data : Word) : (s.okResponse data).trace = s.trace := rfl

/-! The start of a commit writes `status_q`, `data_q` and `state` only. -/

@[simp] theorem State.beginCommit_cfg (s : State) (data : Word) : (s.beginCommit data).cfg = s.cfg := rfl
@[simp] theorem State.beginCommit_img (s : State) (data : Word) : (s.beginCommit data).img = s.img := rfl
@[simp] theorem State.beginCommit_numGroups (s : State) (data : Word) : (s.beginCommit data).numGroups = s.numGroups := rfl
@[simp] theorem State.beginCommit_cardCount (s : State) (data : Word) : (s.beginCommit data).cardCount = s.cardCount := rfl
@[simp] theorem State.beginCommit_state (s : State) (data : Word) : (s.beginCommit data).state = .unlatch := rfl
@[simp] theorem State.beginCommit_cmdQ (s : State) (data : Word) : (s.beginCommit data).cmdQ = s.cmdQ := rfl
@[simp] theorem State.beginCommit_cnt (s : State) (data : Word) : (s.beginCommit data).cnt = s.cnt := rfl
@[simp] theorem State.beginCommit_ptr (s : State) (data : Word) : (s.beginCommit data).ptr = s.ptr := rfl
@[simp] theorem State.beginCommit_latchQ (s : State) (data : Word) : (s.beginCommit data).latchQ = s.latchQ := rfl
@[simp] theorem State.beginCommit_statusQ (s : State) (data : Word) : (s.beginCommit data).statusQ = statusCode .ok := rfl
@[simp] theorem State.beginCommit_dataQ (s : State) (data : Word) : (s.beginCommit data).dataQ = data := rfl
@[simp] theorem State.beginCommit_pins (s : State) (data : Word) : (s.beginCommit data).pins = s.pins := rfl
@[simp] theorem State.beginCommit_cycle (s : State) (data : Word) : (s.beginCommit data).cycle = s.cycle := rfl
@[simp] theorem State.beginCommit_trace (s : State) (data : Word) : (s.beginCommit data).trace = s.trace := rfl

/-! Recording writes `trace` only. -/

@[simp] theorem State.record_cfg (s : State) (e : Event) : (s.record e).cfg = s.cfg := rfl
@[simp] theorem State.record_img (s : State) (e : Event) : (s.record e).img = s.img := rfl
@[simp] theorem State.record_numGroups (s : State) (e : Event) : (s.record e).numGroups = s.numGroups := rfl
@[simp] theorem State.record_cardCount (s : State) (e : Event) : (s.record e).cardCount = s.cardCount := rfl
@[simp] theorem State.record_state (s : State) (e : Event) : (s.record e).state = s.state := rfl
@[simp] theorem State.record_cmdQ (s : State) (e : Event) : (s.record e).cmdQ = s.cmdQ := rfl
@[simp] theorem State.record_cnt (s : State) (e : Event) : (s.record e).cnt = s.cnt := rfl
@[simp] theorem State.record_ptr (s : State) (e : Event) : (s.record e).ptr = s.ptr := rfl
@[simp] theorem State.record_latchQ (s : State) (e : Event) : (s.record e).latchQ = s.latchQ := rfl
@[simp] theorem State.record_statusQ (s : State) (e : Event) : (s.record e).statusQ = s.statusQ := rfl
@[simp] theorem State.record_dataQ (s : State) (e : Event) : (s.record e).dataQ = s.dataQ := rfl
@[simp] theorem State.record_pins (s : State) (e : Event) : (s.record e).pins = s.pins := rfl
@[simp] theorem State.record_cycle (s : State) (e : Event) : (s.record e).cycle = s.cycle := rfl
@[simp] theorem State.record_trace (s : State) (e : Event) : (s.record e).trace = s.trace ++ [(s.cycle, e)] := rfl

/-! An edge passing writes the model's own `pins` and `cycle` only. -/

@[simp] theorem State.tick_cfg (s : State) : s.tick.cfg = s.cfg := rfl
@[simp] theorem State.tick_img (s : State) : s.tick.img = s.img := rfl
@[simp] theorem State.tick_numGroups (s : State) : s.tick.numGroups = s.numGroups := rfl
@[simp] theorem State.tick_cardCount (s : State) : s.tick.cardCount = s.cardCount := rfl
@[simp] theorem State.tick_state (s : State) : s.tick.state = s.state := rfl
@[simp] theorem State.tick_cmdQ (s : State) : s.tick.cmdQ = s.cmdQ := rfl
@[simp] theorem State.tick_cnt (s : State) : s.tick.cnt = s.cnt := rfl
@[simp] theorem State.tick_ptr (s : State) : s.tick.ptr = s.ptr := rfl
@[simp] theorem State.tick_latchQ (s : State) : s.tick.latchQ = s.latchQ := rfl
@[simp] theorem State.tick_statusQ (s : State) : s.tick.statusQ = s.statusQ := rfl
@[simp] theorem State.tick_dataQ (s : State) : s.tick.dataQ = s.dataQ := rfl
@[simp] theorem State.tick_pins (s : State) : s.tick.pins = s.pins.tail := rfl
@[simp] theorem State.tick_cycle (s : State) : s.tick.cycle = s.cycle + 1 := rfl
@[simp] theorem State.tick_trace (s : State) : s.tick.trace = s.trace := rfl

/-! A reset edge writes every state element (10_state.md R34). -/

@[simp] theorem State.resetEdge_cfg (s : State) : s.resetEdge.cfg = s.cfg := rfl
@[simp] theorem State.resetEdge_img (s : State) : s.resetEdge.img = [] := rfl
@[simp] theorem State.resetEdge_numGroups (s : State) : s.resetEdge.numGroups = 0 := rfl
@[simp] theorem State.resetEdge_cardCount (s : State) : s.resetEdge.cardCount = List.replicate s.cfg.gMax 0 := rfl
@[simp] theorem State.resetEdge_state (s : State) : s.resetEdge.state = .idle := rfl
@[simp] theorem State.resetEdge_cmdQ (s : State) : s.resetEdge.cmdQ = 0 := rfl
@[simp] theorem State.resetEdge_cnt (s : State) : s.resetEdge.cnt = 0 := rfl
@[simp] theorem State.resetEdge_ptr (s : State) : s.resetEdge.ptr = 0 := rfl
@[simp] theorem State.resetEdge_latchQ (s : State) : s.resetEdge.latchQ = List.replicate s.cfg.gMax false := rfl
@[simp] theorem State.resetEdge_statusQ (s : State) : s.resetEdge.statusQ = 0 := rfl
@[simp] theorem State.resetEdge_dataQ (s : State) : s.resetEdge.dataQ = 0 := rfl
@[simp] theorem State.resetEdge_pins (s : State) : s.resetEdge.pins = s.pins := rfl
@[simp] theorem State.resetEdge_cycle (s : State) : s.resetEdge.cycle = s.cycle := rfl
@[simp] theorem State.resetEdge_trace (s : State) : s.resetEdge.trace = s.trace ++ [(s.cycle, .reset)] := rfl

/-! The reset state (10_state.md R34). -/

@[simp] theorem State.resetWith_cfg (c : Params) : (State.resetWith c).cfg = c := rfl
@[simp] theorem State.resetWith_img (c : Params) : (State.resetWith c).img = [] := rfl
@[simp] theorem State.resetWith_numGroups (c : Params) : (State.resetWith c).numGroups = 0 := rfl
@[simp] theorem State.resetWith_cardCount (c : Params) : (State.resetWith c).cardCount = List.replicate c.gMax 0 := rfl
@[simp] theorem State.resetWith_state (c : Params) : (State.resetWith c).state = .idle := rfl
@[simp] theorem State.resetWith_cmdQ (c : Params) : (State.resetWith c).cmdQ = 0 := rfl
@[simp] theorem State.resetWith_cnt (c : Params) : (State.resetWith c).cnt = 0 := rfl
@[simp] theorem State.resetWith_ptr (c : Params) : (State.resetWith c).ptr = 0 := rfl
@[simp] theorem State.resetWith_latchQ (c : Params) : (State.resetWith c).latchQ = List.replicate c.gMax false := rfl
@[simp] theorem State.resetWith_statusQ (c : Params) : (State.resetWith c).statusQ = 0 := rfl
@[simp] theorem State.resetWith_dataQ (c : Params) : (State.resetWith c).dataQ = 0 := rfl
@[simp] theorem State.resetWith_pins (c : Params) : (State.resetWith c).pins = [] := rfl
@[simp] theorem State.resetWith_cycle (c : Params) : (State.resetWith c).cycle = 0 := rfl
@[simp] theorem State.resetWith_trace (c : Params) : (State.resetWith c).trace = [] := rfl

end Sys2Proof.Machine
end

