-- ==== Sys2Proof/Laws/Aggregator.lean ====
section
/-! SUPPORT. What the group operations and the payload do: one lemma per operation. -/

namespace Sys2Proof.Machine

/-! ### Clearing a group, setting a channel -/

/-- Clearing `n` slots keeps the canonical form. -/
theorem groupClear_wf {m : Memory} (h : m.wf) (n g : Nat) : (groupClear n m g).wf := by
  induction n with
  | zero => exact h
  | succ n ih =>
    rw [groupClear, List.range_succ, List.foldl_append]
    exact storeImage_wf ih _ _ _

/-- Clearing lists no new address. -/
theorem mem_groupClear {m : Memory} {n g : Nat} {y : Host.Cell} (h : y ∈ groupClear n m g) :
    y ∈ m ∨ ∃ c < n, y.1 / 3 = 256 * g + c := by
  induction n with
  | zero => exact .inl h
  | succ n ih =>
    rw [groupClear, List.range_succ, List.foldl_append] at h
    rcases mem_storeImage h with h | h
    · rcases ih h with h | ⟨c, hc, h⟩
      · exact .inl h
      · exact .inr ⟨c, by omega, h⟩
    · exact .inr ⟨n, by omega, h⟩

/-- `group_clear(g)` zeroes the bytes of the group's slots and no other (41_group_aggregator.md R95). -/
theorem read_groupClear {m : Memory} (h : m.wf) (n g a : Nat) :
    (groupClear n m g).read a = if imgAddr g 0 0 ≤ a ∧ a < imgAddr g n 0 then 0 else m.read a := by
  induction n with
  | zero => rw [if_neg (by omega)]; rfl
  | succ n ih =>
    have e : groupClear (n + 1) m g = storeImage (groupClear n m g) g n 0 := by
      rw [groupClear, List.range_succ, List.foldl_append]; rfl
    rw [e, read_storeImage (groupClear_wf h n g), ih, imageByte_zero]
    by_cases h1 : imgAddr g n 0 ≤ a ∧ a < imgAddr g (n + 1) 0
    · rw [if_pos h1, if_pos (by simp only [imgAddr] at *; omega)]
    · rw [if_neg h1]
      by_cases h2 : imgAddr g 0 0 ≤ a ∧ a < imgAddr g n 0
      · rw [if_pos h2, if_pos (by simp only [imgAddr] at *; omega)]
      · rw [if_neg h2, if_neg (by simp only [imgAddr] at *; omega)]

/-- The images after `group_clear(g)`. -/
theorem loadImage_groupClear {m : Memory} (h : m.wf) {n : Nat} (hn : n ≤ 256) (g : Nat) {g' c' : Nat}
    (hc' : c' < 256) :
    loadImage (groupClear n m g) g' c' = if g' = g ∧ c' < n then 0 else loadImage m g' c' := by
  by_cases hg : g' = g ∧ c' < n
  · have byte : ∀ k < 3, (groupClear n m g).read (imgAddr g' c' k) = 0 := fun k hk => by
      rw [read_groupClear h, if_pos (by simp only [imgAddr]; omega)]
    rw [if_pos hg, loadImage, byte 0 (by omega), byte 1 (by omega), byte 2 (by omega)]
    rfl
  · rw [if_neg hg]
    refine loadImage_congr fun k hk => ?_
    rw [read_groupClear h, if_neg (by simp only [imgAddr]; omega)]

/-- `group_set` keeps the canonical form. -/
theorem groupSet_wf {m : Memory} (h : m.wf) (n g c p q : Nat) : (groupSet n m g c p q).wf :=
  storeImage_wf (groupClear_wf h _ _) _ _ _

/-- Setting lists no address but those of the group. -/
theorem mem_groupSet {m : Memory} {n g c p q : Nat} {y : Host.Cell} (hc : c < n) (h : y ∈ groupSet n m g c p q) :
    y ∈ m ∨ ∃ c < n, y.1 / 3 = 256 * g + c := by
  rcases mem_storeImage h with h | h
  · exact mem_groupClear h
  · exact .inr ⟨c, hc, h⟩

/-- `group_set(g, c, p, n)`: the addressed card takes the encoder's image, every other byte of the group's slots is
zeroed, and no other byte changes (41_group_aggregator.md R96). -/
theorem read_groupSet {m : Memory} (h : m.wf) (n g c p q a : Nat) :
    (groupSet n m g c p q).read a =
      if imgAddr g c 0 ≤ a ∧ a < imgAddr g (c + 1) 0 then imageByte (encodeChannel p q).1 (a - imgAddr g c 0)
      else if imgAddr g 0 0 ≤ a ∧ a < imgAddr g n 0 then 0 else m.read a := by
  rw [groupSet, cardSet, read_storeImage (groupClear_wf h n g), read_groupClear h]

/-- The images after `group_set(g, c, p, q)`. -/
theorem loadImage_groupSet {m : Memory} (h : m.wf) {n : Nat} (hn : n ≤ 256) {g c : Nat} (hc : c < n) (p q : Nat)
    {g' c' : Nat} (hc' : c' < 256) :
    loadImage (groupSet n m g c p q) g' c' =
      if g' = g ∧ c' = c then (encodeChannel p q).1
      else if g' = g ∧ c' < n then 0 else loadImage m g' c' := by
  by_cases hg : g' = g ∧ c' = c
  · rw [if_pos hg, hg.1, hg.2, groupSet, cardSet, loadImage_storeImage_same (groupClear_wf h n g)]
  · rw [if_neg hg, groupSet, cardSet, loadImage_storeImage_other (groupClear_wf h n g) _ (by omega) hc' hg,
      loadImage_groupClear h hn g hc']

/-- The loops of CLEAR_ALL keep the canonical form. -/
theorem stackClear_wf {m : Memory} (h : m.wf) (k n : Nat) : (stackClear k n m).wf := by
  induction k with
  | zero => exact h
  | succ k ih =>
    rw [stackClear, List.range_succ, List.foldl_append]
    exact groupClear_wf ih _ _

/-- The loops of CLEAR_ALL zero the bytes of every slot and no other (42_stack_commands.md R108). -/
theorem read_stackClear {m : Memory} (h : m.wf) (k n a : Nat) :
    (stackClear k n m).read a =
      if ∃ g < k, imgAddr g 0 0 ≤ a ∧ a < imgAddr g n 0 then 0 else m.read a := by
  induction k with
  | zero => simp [stackClear]
  | succ k ih =>
    have e : stackClear (k + 1) n m = groupClear n (stackClear k n m) k := by
      rw [stackClear, List.range_succ, List.foldl_append]; rfl
    rw [e, read_groupClear (stackClear_wf h k n), ih]
    by_cases h1 : imgAddr k 0 0 ≤ a ∧ a < imgAddr k n 0
    · rw [if_pos h1, if_pos ⟨k, by omega, h1⟩]
    · rw [if_neg h1]
      by_cases h2 : ∃ g < k, imgAddr g 0 0 ≤ a ∧ a < imgAddr g n 0
      · obtain ⟨g, hg, h2⟩ := h2
        rw [if_pos ⟨g, hg, h2⟩, if_pos ⟨g, by omega, h2⟩]
      · rw [if_neg h2, if_neg]
        rintro ⟨g, hg, h3⟩
        rcases Nat.lt_succ_iff_lt_or_eq.1 hg with hg | rfl
        · exact h2 ⟨g, hg, h3⟩
        · exact h1 h3

/-- The images after the loops of CLEAR_ALL. -/
theorem loadImage_stackClear {m : Memory} (h : m.wf) (k : Nat) {n : Nat} (hn : n ≤ 256) {g c : Nat} (hc : c < 256) :
    loadImage (stackClear k n m) g c = if g < k ∧ c < n then 0 else loadImage m g c := by
  induction k with
  | zero => simp [stackClear]
  | succ k ih =>
    have e : stackClear (k + 1) n m = groupClear n (stackClear k n m) k := by
      rw [stackClear, List.range_succ, List.foldl_append]; rfl
    rw [e, loadImage_groupClear (stackClear_wf h k n) hn k hc, ih]
    by_cases h1 : g = k ∧ c < n
    · rw [if_pos h1, if_pos (by omega)]
    · rw [if_neg h1]
      by_cases h2 : g < k ∧ c < n
      · rw [if_pos h2, if_pos (by omega)]
      · rw [if_neg h2, if_neg (by omega)]

/-- The loops of CLEAR_ALL leave nothing listed where every listed address is a slot of the file. -/
theorem stackClear_eq_nil {m : Memory} (h : m.wf) {k n : Nat}
    (hin : ∀ x ∈ m, x.1 / 768 < k ∧ x.1 / 3 % 256 < n) : stackClear k n m = [] := by
  refine Memory.ext_read (stackClear_wf h k n) Memory.wf_nil fun a => ?_
  rw [read_stackClear h, Memory.read_nil]
  by_cases hx : ∃ g < k, imgAddr g 0 0 ≤ a ∧ a < imgAddr g n 0
  · rw [if_pos hx]
  · rw [if_neg hx]
    clear h
    induction m with
    | nil => rfl
    | cons x m ih =>
      have hx' := hin x (by simp)
      rw [Memory.read, if_neg]
      · exact ih fun y hy => hin y (by simp [hy])
      · rintro rfl
        exact hx ⟨x.1 / 768, hx'.1, by simp only [imgAddr]; omega⟩

/-! ### The payload -/

theorem State.base_zero (s : State) : s.base 0 = 0 := by simp [State.base]

/-- `BASE(g + 1) = BASE(g) + 3 * CARD_COUNT[g]` (20_memory.md R43). -/
theorem State.base_succ (s : State) (g : Nat) : s.base (g + 1) = s.base g + 3 * s.cards g := by
  simp [State.base, List.range_succ, Nat.mul_add]

theorem State.base_mono (s : State) {g h : Nat} (hgh : g ≤ h) : s.base g ≤ s.base h := by
  induction h with
  | zero => rw [Nat.le_zero.1 hgh]
  | succ h ih =>
    rcases Nat.lt_or_ge h g with hlt | hge
    · rw [show g = h + 1 by omega]
    · have := ih hge
      rw [State.base_succ]
      omega

/-- `len(GP(g)) = 3 * CARD_COUNT[g]` (41_group_aggregator.md R97). -/
theorem State.length_groupPayload (s : State) (g : Nat) : (s.groupPayload g).length = 3 * s.cards g := by
  simp [State.groupPayload, List.length_flatMap, State.cardBytes]
  omega

/-- The groups before `n` fill the offsets before `BASE(n)`. -/
theorem State.length_flatMap_groupPayload (s : State) (n : Nat) :
    ((List.range n).flatMap s.groupPayload).length = s.base n := by
  induction n with
  | zero => simp [State.base]
  | succ n ih => rw [List.range_succ, List.flatMap_append, List.length_append, ih, State.base_succ]; simp [State.length_groupPayload]

/-- Byte `3c + k` of a group's payload is byte `k` of card `c` (41_group_aggregator.md R97). -/
theorem State.getElem?_groupPayload (s : State) (g r : Nat) (h : r < 3 * s.cards g) :
    (s.groupPayload g)[r]? = some (imageByte (s.image g (r / 3)) (r % 3)) := by
  have key : ∀ n, r < 3 * n →
      ((List.range n).flatMap (s.cardBytes g))[r]? = some (imageByte (s.image g (r / 3)) (r % 3)) := by
    intro n
    induction n with
    | zero => intro h; omega
    | succ n ih =>
      intro h
      have hl : ((List.range n).flatMap (s.cardBytes g)).length = 3 * n := by
        simp [List.length_flatMap, State.cardBytes]; omega
      rw [List.range_succ, List.flatMap_append]
      by_cases hr : r < 3 * n
      · rw [List.getElem?_append_left (by omega), ih hr]
      · rw [List.getElem?_append_right (by omega), hl]
        have hd : r / 3 = n := by omega
        have hm : r - 3 * n = r % 3 := by omega
        rw [hd, hm]
        have : r % 3 < 3 := by omega
        simp only [List.flatMap_cons, List.flatMap_nil, List.append_nil]
        generalize r % 3 = k at *
        match k, this with
        | 0, _ => rfl
        | 1, _ => rfl
        | 2, _ => rfl
  exact key _ h

/-- Offset `i` of the payload of the groups before `n` belongs to the group `g` with `BASE(g) <= i < BASE(g+1)`. -/
theorem State.getElem?_payload_of_owner (s : State) {n g i : Nat} (hg : g < n) (h1 : s.base g ≤ i)
    (h2 : i < s.base (g + 1)) :
    ((List.range n).flatMap s.groupPayload)[i]? =
      some (imageByte (s.image g ((i - s.base g) / 3)) ((i - s.base g) % 3)) := by
  induction n with
  | zero => omega
  | succ n ih =>
    have hl := s.length_flatMap_groupPayload n
    rw [List.range_succ, List.flatMap_append]
    by_cases hgn : g < n
    · have := s.base_mono (show g + 1 ≤ n by omega)
      rw [List.getElem?_append_left (by omega), ih hgn]
    · have hgn : g = n := by omega
      subst hgn
      rw [List.getElem?_append_right (by omega), hl]
      rw [State.base_succ] at h2
      simpa using s.getElem?_groupPayload g (i - s.base g) (by omega)

/-- Every offset below `BASE(n)` has an owner below `n`. -/
theorem State.exists_owner (s : State) {n i : Nat} (h : i < s.base n) :
    ∃ g < n, s.base g ≤ i ∧ i < s.base (g + 1) := by
  induction n with
  | zero => rw [State.base_zero] at h; omega
  | succ n ih =>
    by_cases hi : i < s.base n
    · obtain ⟨g, hg, h'⟩ := ih hi
      exact ⟨g, by omega, h'⟩
    · exact ⟨n, by omega, by omega, h⟩

/-- An offset that has an owner is below `LEN`, and `MemRead` is the byte of the owner's card. -/
theorem State.memRead_cases (s : State) (i : Nat) :
    (∃ g < s.groups, s.base g ≤ i ∧ i < s.base (g + 1) ∧
      s.memRead i = some (imageByte (s.image g ((i - s.base g) / 3)) ((i - s.base g) % 3))) ∨
    (s.len ≤ i ∧ s.memRead i = none) := by
  unfold State.memRead
  cases hf : (List.range s.groups).find? (fun g => s.base g ≤ i && i < s.base (g + 1)) with
  | some g =>
    left
    have hp := List.find?_some hf
    have hm := List.mem_of_find?_eq_some hf
    simp only [Bool.and_eq_true, decide_eq_true_eq] at hp
    exact ⟨g, List.mem_range.1 hm, hp.1, hp.2, rfl⟩
  | none =>
    right
    refine ⟨?_, rfl⟩
    by_contra hlt
    obtain ⟨g, hg, h1, h2⟩ := s.exists_owner (n := s.groups) (i := i) (by simpa [State.len] using hlt)
    have := List.find?_eq_none.1 hf g (List.mem_range.2 hg)
    simp [h1, h2] at this

/-- The payload is `LEN` bytes long (20_memory.md R44). -/
theorem State.length_payload (s : State) : s.payload.length = s.len := s.length_flatMap_groupPayload s.groups

/-- Below `LEN`, `MemRead` is the payload's byte (20_memory.md R45). -/
theorem State.memRead_of_lt (s : State) {i : Nat} (h : i < s.len) :
    ∃ b, s.memRead i = some b ∧ s.payload[i]? = some b := by
  rcases s.memRead_cases i with ⟨g, hg, h1, h2, e⟩ | ⟨h1, -⟩
  · exact ⟨_, e, s.getElem?_payload_of_owner hg h1 h2⟩
  · omega

/-- Where `MemRead` is defined it is the payload's byte. -/
theorem State.memRead_eq_some (s : State) {i : Nat} {b : Byte} :
    s.memRead i = some b ↔ s.payload[i]? = some b := by
  by_cases h : i < s.len
  · obtain ⟨c, h1, h2⟩ := s.memRead_of_lt h
    rw [h1, h2]
  · rcases s.memRead_cases i with ⟨g, hg, h1, h2, -⟩ | ⟨-, e⟩
    · have := s.base_mono (show g + 1 ≤ s.groups from hg)
      unfold State.len at h
      omega
    · rw [e, List.getElem?_eq_none (by rw [s.length_payload]; omega)]

/-- Clearing the whole file lists no new address. -/
theorem mem_stackClear {m : Memory} {k n : Nat} {y : Host.Cell} (h : y ∈ stackClear k n m) :
    y ∈ m ∨ ∃ g < k, ∃ c < n, y.1 / 3 = 256 * g + c := by
  induction k with
  | zero => exact .inl h
  | succ k ih =>
    rw [stackClear, List.range_succ, List.foldl_append] at h
    rcases mem_groupClear h with h | ⟨c, hc, e⟩
    · rcases ih h with h | ⟨g, hg, h⟩
      · exact .inl h
      · exact .inr ⟨g, by omega, h⟩
    · exact .inr ⟨k, by omega, c, hc, e⟩

/-- Payload and topology reads depend on `IMG`, `NUM_GROUPS` and `CARD_COUNT` alone. -/
theorem State.payload_congr {s t : State} (hi : t.img = s.img) (hn : t.numGroups = s.numGroups)
    (hc : t.cardCount = s.cardCount) :
    t.payload = s.payload ∧ t.len = s.len ∧ t.memRead = s.memRead ∧ t.groups = s.groups ∧ t.cards = s.cards ∧
      t.image = s.image ∧ t.base = s.base := by
  have hg : t.groups = s.groups := by simp [State.groups, hn]
  have hcd : t.cards = s.cards := by funext g; simp [State.cards, hc]
  have him : t.image = s.image := by funext g c; simp [State.image, hi]
  have hb : t.base = s.base := by funext g; simp [State.base, hcd]
  have hcb : t.cardBytes = s.cardBytes := by funext g c; simp [State.cardBytes, him]
  have hgp : t.groupPayload = s.groupPayload := by funext g; simp [State.groupPayload, hcd, hcb]
  refine ⟨by simp [State.payload, hg, hgp], by simp [State.len, hb, hg], ?_, hg, hcd, him, hb⟩
  funext i
  simp [State.memRead, hg, hb, him]

end Sys2Proof.Machine
end

