-- ==== Sys2Proof/Laws/Commands.lean ====
section
/-! SUPPORT. What each meaning can do: one inversion lemma per command, and their common frame. -/

namespace Sys2Proof.Machine

/-! ### The operand checks -/

theorem withGroup_valid {grp : Nat} {s : State} (h : 1 ≤ grp ∧ grp ≤ s.groups)
    (k : Nat → Host.Outcome State Fault Refusal) : withGroup grp s k = k (grp - 1) := if_pos h

theorem withGroup_invalid {grp : Nat} {s : State} (h : grp = 0 ∨ s.groups < grp)
    (k : Nat → Host.Outcome State Fault Refusal) : withGroup grp s k = raiseError .errGroup s :=
  if_neg (by omega)

theorem withCard_valid {g crd : Nat} {s : State} (h : 1 ≤ crd ∧ crd ≤ s.cards g)
    (k : Nat → Host.Outcome State Fault Refusal) : withCard g crd s k = k (crd - 1) := if_pos h

theorem withCard_invalid {g crd : Nat} {s : State} (h : crd = 0 ∨ s.cards g < crd)
    (k : Nat → Host.Outcome State Fault Refusal) : withCard g crd s k = raiseError .errCard s :=
  if_neg (by omega)

/-- What the group check can end in. -/
theorem withGroup_next {grp : Nat} {s t : State} {k : Nat → Host.Outcome State Fault Refusal}
    (h : withGroup grp s k = .next t) :
    (1 ≤ grp ∧ grp ≤ s.groups ∧ k (grp - 1) = .next t) ∨
    ((grp = 0 ∨ s.groups < grp) ∧ t = s.errorResponse .errGroup) := by
  unfold withGroup raiseError at h
  split at h
  next hv => exact .inl ⟨hv.1, hv.2, h⟩
  next hv => cases h; exact .inr ⟨by omega, rfl⟩

/-- What the card check can end in. -/
theorem withCard_next {g crd : Nat} {s t : State} {k : Nat → Host.Outcome State Fault Refusal}
    (h : withCard g crd s k = .next t) :
    (1 ≤ crd ∧ crd ≤ s.cards g ∧ k (crd - 1) = .next t) ∨
    ((crd = 0 ∨ s.cards g < crd) ∧ t = s.errorResponse .errCard) := by
  unfold withCard raiseError at h
  split at h
  next hv => exact .inl ⟨hv.1, hv.2, h⟩
  next hv => cases h; exact .inr ⟨by omega, rfl⟩

theorem withGroupSlots_next {g : Nat} {s t : State} {k : Host.Outcome State Fault Refusal}
    (h : withGroupSlots g s k = .next t) : g < s.cfg.gMax ∧ k = .next t := by
  unfold withGroupSlots at h
  split at h
  next hg => exact ⟨hg, h⟩
  next => cases h

theorem withSlot_next {g c : Nat} {s t : State} {k : Host.Outcome State Fault Refusal}
    (h : withSlot g c s k = .next t) : g < s.cfg.gMax ∧ c < s.cfg.cMax ∧ k = .next t := by
  unfold withSlot at h
  split at h
  next hg => exact ⟨hg.1, hg.2, h⟩
  next => cases h

/-! ### One inversion lemma per command -/

theorem execAddGroup_next {count : Nat} {s t : State} (h : execAddGroup count s = .next t) :
    ((s.groups = s.cfg.gMax ∨ s.cfg.cMax < count) ∧ t = s.errorResponse .errCapacity) ∨
    (s.groups < s.cfg.gMax ∧ count ≤ s.cfg.cMax ∧
      t = ({ s with
        img := groupClear s.cfg.cMax s.img s.groups
        cardCount := s.cardCount.set s.groups (BitVec.ofNat 8 count)
        numGroups := BitVec.ofNat 8 (s.groups + 1) } : State).okResponse (groupNumberData (s.groups + 1))) := by
  unfold execAddGroup raiseError at h
  split at h
  next hc => cases h; exact .inl ⟨hc, rfl⟩
  next hc =>
    obtain ⟨hg, h⟩ := withGroupSlots_next h
    cases h
    exact .inr ⟨hg, by omega, rfl⟩

theorem execClearGroup_next {grp : Nat} {s t : State} (h : execClearGroup grp s = .next t) :
    ((grp = 0 ∨ s.groups < grp) ∧ t = s.errorResponse .errGroup) ∨
    (1 ≤ grp ∧ grp ≤ s.groups ∧ grp - 1 < s.cfg.gMax ∧
      t = ({ s with img := groupClear s.cfg.cMax s.img (grp - 1) } : State).beginCommit 0) := by
  rcases withGroup_next h with ⟨h1, h2, h⟩ | h
  · obtain ⟨hg, h⟩ := withGroupSlots_next h
    cases h
    exact .inr ⟨h1, h2, hg, rfl⟩
  · exact .inl h

theorem execSetChannel_next {grp crd pos neg : Nat} {s t : State} (h : execSetChannel grp crd pos neg s = .next t) :
    ((grp = 0 ∨ s.groups < grp) ∧ t = s.errorResponse .errGroup) ∨
    (1 ≤ grp ∧ grp ≤ s.groups ∧ (crd = 0 ∨ s.cards (grp - 1) < crd) ∧ t = s.errorResponse .errCard) ∨
    (1 ≤ grp ∧ grp ≤ s.groups ∧ 1 ≤ crd ∧ crd ≤ s.cards (grp - 1) ∧ grp - 1 < s.cfg.gMax ∧ crd - 1 < s.cfg.cMax ∧
      t = ({ s with img := groupSet s.cfg.cMax s.img (grp - 1) (crd - 1) pos neg } : State).beginCommit
        (kindData (encodeChannel pos neg).2)) := by
  rcases withGroup_next h with ⟨h1, h2, h⟩ | h
  · rcases withCard_next h with ⟨h3, h4, h⟩ | ⟨h3, h⟩
    · obtain ⟨hg, hc, h⟩ := withSlot_next h
      cases h
      exact .inr (.inr ⟨h1, h2, h3, h4, hg, hc, rfl⟩)
    · exact .inr (.inl ⟨h1, h2, h3, h⟩)
  · exact .inl h

theorem execReadImage_next {grp crd : Nat} {s t : State} (h : execReadImage grp crd s = .next t) :
    ((grp = 0 ∨ s.groups < grp) ∧ t = s.errorResponse .errGroup) ∨
    (1 ≤ grp ∧ grp ≤ s.groups ∧ (crd = 0 ∨ s.cards (grp - 1) < crd) ∧ t = s.errorResponse .errCard) ∨
    (1 ≤ grp ∧ grp ≤ s.groups ∧ 1 ≤ crd ∧ crd ≤ s.cards (grp - 1) ∧ grp - 1 < s.cfg.gMax ∧ crd - 1 < s.cfg.cMax ∧
      t = s.okResponse (imageData (s.image (grp - 1) (crd - 1)))) := by
  rcases withGroup_next h with ⟨h1, h2, h⟩ | h
  · rcases withCard_next h with ⟨h3, h4, h⟩ | ⟨h3, h⟩
    · obtain ⟨hg, hc, h⟩ := withSlot_next h
      cases h
      exact .inr (.inr ⟨h1, h2, h3, h4, hg, hc, rfl⟩)
    · exact .inr (.inl ⟨h1, h2, h3, h⟩)
  · exact .inl h

/-- What any command's `S_EXEC` cycle can do: respond with an error and change nothing else, or have the one effect
of its rule (42_stack_commands.md R105 to R112). -/
theorem exec_next {i : Instr} {s t : State} (h : exec i s = .next t) :
    (∃ code, code ≠ .ok ∧ code ≠ .faultSeen ∧ t = s.errorResponse code) ∨
    (∃ count, i = .addGroup count ∧ s.groups < s.cfg.gMax ∧ count ≤ s.cfg.cMax ∧
      t = ({ s with
        img := groupClear s.cfg.cMax s.img s.groups
        cardCount := s.cardCount.set s.groups (BitVec.ofNat 8 count)
        numGroups := BitVec.ofNat 8 (s.groups + 1) } : State).okResponse (groupNumberData (s.groups + 1))) ∨
    (i = .clearAll ∧ t = ({ s with img := stackClear s.cfg.gMax s.cfg.cMax s.img } : State).beginCommit 0) ∨
    (∃ g, g < s.groups ∧ g < s.cfg.gMax ∧ i = .clearGroup (g + 1) ∧
      t = ({ s with img := groupClear s.cfg.cMax s.img g } : State).beginCommit 0) ∨
    (∃ g c p n, g < s.groups ∧ c < s.cards g ∧ g < s.cfg.gMax ∧ c < s.cfg.cMax ∧
      i = .setChannel (g + 1) (c + 1) p n ∧
      t = ({ s with img := groupSet s.cfg.cMax s.img g c p n } : State).beginCommit
        (kindData (encodeChannel p n).2)) ∨
    (∃ g c, g < s.groups ∧ c < s.cards g ∧ g < s.cfg.gMax ∧ c < s.cfg.cMax ∧ i = .readImage (g + 1) (c + 1) ∧
      t = s.okResponse (imageData (s.image g c))) := by
  cases i with
  | reserved000 => cases h; exact .inl ⟨_, by decide, by decide, rfl⟩
  | reserved110 => cases h; exact .inl ⟨_, by decide, by decide, rfl⟩
  | reserved111 => cases h; exact .inl ⟨_, by decide, by decide, rfl⟩
  | addGroup count =>
    rcases execAddGroup_next h with ⟨-, h⟩ | ⟨h1, h2, h⟩
    · exact .inl ⟨_, by decide, by decide, h⟩
    · exact .inr (.inl ⟨count, rfl, h1, h2, h⟩)
  | clearAll => cases h; exact .inr (.inr (.inl ⟨rfl, rfl⟩))
  | clearGroup grp =>
    rcases execClearGroup_next h with ⟨-, h⟩ | ⟨h1, h2, h3, h⟩
    · exact .inl ⟨_, by decide, by decide, h⟩
    · exact .inr (.inr (.inr (.inl ⟨grp - 1, by omega, h3, by rw [Nat.sub_add_cancel h1], h⟩)))
  | setChannel grp crd p n =>
    rcases execSetChannel_next h with ⟨-, h⟩ | ⟨-, -, -, h⟩ | ⟨h1, h2, h3, h4, h5, h6, h⟩
    · exact .inl ⟨_, by decide, by decide, h⟩
    · exact .inl ⟨_, by decide, by decide, h⟩
    · exact .inr (.inr (.inr (.inr (.inl ⟨grp - 1, crd - 1, p, n, by omega, by omega, h5, h6,
        by rw [Nat.sub_add_cancel h1, Nat.sub_add_cancel h3], h⟩))))
  | readImage grp crd =>
    rcases execReadImage_next h with ⟨-, h⟩ | ⟨-, -, -, h⟩ | ⟨h1, h2, h3, h4, h5, h6, h⟩
    · exact .inl ⟨_, by decide, by decide, h⟩
    · exact .inl ⟨_, by decide, by decide, h⟩
    · exact .inr (.inr (.inr (.inr (.inr ⟨grp - 1, crd - 1, by omega, by omega, h5, h6,
        by rw [Nat.sub_add_cancel h1, Nat.sub_add_cancel h3], h⟩))))

/-- No command writes the sequencer's other registers, the latch register or the model's own fields in `S_EXEC`
(10_state.md R40). -/
theorem exec_frame {i : Instr} {s t : State} (h : exec i s = .next t) :
    t.cfg = s.cfg ∧ t.cmdQ = s.cmdQ ∧ t.cnt = s.cnt ∧ t.ptr = s.ptr ∧ t.latchQ = s.latchQ ∧ t.pins = s.pins ∧
      t.cycle = s.cycle ∧ t.trace = s.trace := by
  rcases exec_next h with ⟨_, -, -, rfl⟩ | ⟨_, -, -, -, rfl⟩ | ⟨-, rfl⟩ | ⟨_, -, -, -, rfl⟩ |
    ⟨_, _, _, _, -, -, -, -, -, rfl⟩ | ⟨_, _, -, -, -, -, -, rfl⟩ <;> simp

end Sys2Proof.Machine
end

