-- ==== Sys2Proof/Laws/Step.lean ====
section
/-! SUPPORT. What a step can do, the passing of edges, and runs. -/

namespace Sys2Proof.Machine

/-! ### The edge -/

theorem afterEdge_next {o : Host.Outcome State Fault Refusal} {t : State} (h : afterEdge o = .next t) :
    ∃ u, o = .next u ∧ t = u.tick := by
  cases o with
  | next u => cases h; exact ⟨u, rfl, rfl⟩
  | fault r => cases h
  | refused r => cases h

/-- A step is a reset edge, or the cycle of the state the FSM is in. -/
theorem step_next {s t : State} (h : step s = .next t) :
    (s.nextPins.rst = true ∧ t = s.resetEdge.tick) ∨
    (s.nextPins.rst = false ∧ ∃ u, fsmEdge s.nextPins s = .next u ∧ t = u.tick) := by
  obtain ⟨u, hu, rfl⟩ := afterEdge_next h
  unfold edge at hu
  split at hu
  next hr => cases hu; exact .inl ⟨hr, rfl⟩
  next hr => exact .inr ⟨by simpa using hr, u, hu, rfl⟩

/-- With `rst` low a step is the cycle of the state. -/
theorem step_of_noReset {s : State} (h : s.nextPins.rst = false) : step s = afterEdge (fsmEdge s.nextPins s) := by
  simp [step, edge, h]

theorem step_of_reset {s : State} (h : s.nextPins.rst = true) : step s = .next s.resetEdge.tick := by
  simp [step, edge, h, afterEdge]

/-- Everything one cycle with `rst` low can do, by the state it is spent in (43_commit_fsm.md R119 to R128). -/
theorem fsmEdge_next {p : Pins} {s u : State} (h : fsmEdge p s = .next u) :
    (s.state = .idle ∧ p.cmdValid = true ∧
      u = ({ s with cmdQ := p.cmdWord, state := .exec } : State).record (.accept p.cmdWord)) ∨
    (s.state = .idle ∧ p.cmdValid = false ∧ u = s) ∨
    (s.state = .exec ∧ exec s.command s = .next u) ∨
    (s.state = .unlatch ∧ u = ({ s with
      latchQ := List.replicate s.cfg.gMax false
      cnt := truncate s.cfg.cntW s.cfg.dLowCycles
      state := .waitLow } : State).record (.latchAll false)) ∨
    (s.state = .waitLow ∧ s.cnt = 1 ∧ u = { s with ptr := 0, state := .xfer }) ∨
    (s.state = .waitLow ∧ s.cnt ≠ 1 ∧ u = { s with cnt := decrement s.cfg.cntW s.cnt }) ∨
    (s.state = .xfer ∧ s.len = 0 ∧ u = { s with state := .drain }) ∨
    (∃ b, s.state = .xfer ∧ s.len ≠ 0 ∧ s.memRead s.ptr = some b ∧ p.txReady = true ∧ s.ptr = s.len - 1 ∧
      u = ({ s with state := .drain } : State).record (.byte s.ptr b)) ∨
    (∃ b, s.state = .xfer ∧ s.len ≠ 0 ∧ s.memRead s.ptr = some b ∧ p.txReady = true ∧ s.ptr ≠ s.len - 1 ∧
      u = ({ s with ptr := increment s.cfg.ptrW s.ptr } : State).record (.byte s.ptr b)) ∨
    (∃ b, s.state = .xfer ∧ s.len ≠ 0 ∧ s.memRead s.ptr = some b ∧ p.txReady = false ∧ u = s) ∨
    (s.state = .drain ∧ p.txIdle = true ∧ u = ({ s with state := .latch } : State).record .txIdle) ∨
    (s.state = .drain ∧ p.txIdle = false ∧ u = s) ∨
    (s.state = .latch ∧ u = ({ s with
      latchQ := s.registeredLatch
      cnt := truncate s.cfg.cntW s.cfg.dHighCycles
      state := .waitHigh } : State).record (.latchRegistered true)) ∨
    (s.state = .waitHigh ∧ s.cnt = 1 ∧ u = { s with state := .verify }) ∨
    (s.state = .waitHigh ∧ s.cnt ≠ 1 ∧ u = { s with cnt := decrement s.cfg.cntW s.cnt }) ∨
    (s.state = .verify ∧
      u = ({ s with statusQ := statusCode (verifyStatus p.faultOk), state := .resp } : State).record
        (.faultSample p.faultOk)) ∨
    (s.state = .resp ∧ p.rspReady = true ∧
      u = ({ s with state := .idle } : State).record (.respond s.statusQ s.dataQ)) ∨
    (s.state = .resp ∧ p.rspReady = false ∧ u = s) := by
  cases hs : s.state with
  | idle =>
    simp only [fsmEdge, hs, idleEdge] at h
    split at h <;> cases h <;> simp_all
  | exec =>
    simp only [fsmEdge, hs, execEdge] at h
    simp_all
  | unlatch => simp only [fsmEdge, hs, unlatchEdge] at h; cases h; simp
  | waitLow =>
    simp only [fsmEdge, hs, waitLowEdge] at h
    split at h <;> cases h <;> simp_all
  | xfer =>
    simp only [fsmEdge, hs, xferEdge] at h
    split at h
    next hl => cases h; simp_all
    next hl =>
      split at h
      next => cases h
      next b hb =>
        split at h
        next hr => split at h <;> cases h <;> simp_all
        next hr => cases h; simp_all
  | drain =>
    simp only [fsmEdge, hs, drainEdge] at h
    split at h <;> cases h <;> simp_all
  | latch => simp only [fsmEdge, hs, latchEdge] at h; cases h; simp
  | waitHigh =>
    simp only [fsmEdge, hs, waitHighEdge] at h
    split at h <;> cases h <;> simp_all
  | verify => simp only [fsmEdge, hs, verifyEdge] at h; cases h; simp
  | resp =>
    simp only [fsmEdge, hs, respEdge] at h
    split at h <;> cases h <;> simp_all
  | unused k => simp only [fsmEdge, hs] at h; cases h

/-! ### Samples and runs -/

theorem State.pinsAt_zero (s : State) : s.pinsAt 0 = s.nextPins := by
  unfold State.pinsAt State.nextPins
  cases s.pins <;> simp

/-- Once an edge has passed, the sample `k` edges ahead is the one that was `k + 1` ahead. -/
theorem State.pinsAt_tick (s : State) (k : Nat) : s.tick.pinsAt k = s.pinsAt (k + 1) := by
  unfold State.pinsAt
  cases h : s.pins with
  | nil => simp [State.tick, h, Nat.add_comm, Nat.add_left_comm]
  | cons p l => simp [State.tick, h, Nat.add_comm, Nat.add_left_comm]

/-- The samples depend on the script and the edge number alone. -/
theorem State.pinsAt_congr {s t : State} (hp : t.pins = s.pins) (hc : t.cycle = s.cycle) (k : Nat) :
    t.pinsAt k = s.pinsAt k := by
  simp [State.pinsAt, hp, hc]

/-- Only the passing of the edge moves the script and the edge number on. -/
theorem fsmEdge_env {p : Pins} {s u : State} (h : fsmEdge p s = .next u) :
    u.cfg = s.cfg ∧ u.pins = s.pins ∧ u.cycle = s.cycle := by
  rcases fsmEdge_next h with h | h | h | h | h | h | h | h | h | h | h | h | h | h | h | h | h | h
  case inr.inr.inl => have := exec_frame h.2; exact ⟨this.1, this.2.2.2.2.2.1, this.2.2.2.2.2.2.1⟩
  all_goals aesop

/-- A step keeps the parameters, uses up one sample and counts one edge. -/
theorem step_env {s t : State} (h : step s = .next t) :
    t.cfg = s.cfg ∧ t.pins = s.pins.tail ∧ t.cycle = s.cycle + 1 := by
  rcases step_next h with ⟨-, rfl⟩ | ⟨-, u, hu, rfl⟩
  · simp
  · obtain ⟨h1, h2, h3⟩ := fsmEdge_env hu
    simp [h1, h2, h3]

/-- After a step, the sample `k` edges ahead is the one that was `k + 1` ahead. -/
theorem step_pinsAt {s t : State} (h : step s = .next t) (k : Nat) : t.pinsAt k = s.pinsAt (k + 1) := by
  obtain ⟨-, h2, h3⟩ := step_env h
  rw [State.pinsAt_congr (s := s.tick) (by simp [h2]) (by simp [h3]), State.pinsAt_tick]

theorem runSteps_succ {s t : State} {n : Nat} (h : step s = .next t) : runSteps (n + 1) s = runSteps n t := by
  simp [runSteps, h]

/-- A run of `m + n` steps is a run of `m` and then one of `n`. -/
theorem runSteps_add {s t : State} {m n : Nat} (h : runSteps m s = .next t) : runSteps (m + n) s = runSteps n t := by
  induction m generalizing s with
  | zero => cases h; rw [Nat.zero_add]
  | succ m ih =>
    rw [Nat.succ_add]
    simp only [runSteps] at h ⊢
    split at h
    next u hu => exact ih h
    next => cases h
    next => cases h

/-- An edge that changes nothing else leaves one tick. -/
theorem State.ticks_succ (s : State) (n : Nat) : (s.tick).ticks n = s.ticks (n + 1) := by
  simp [State.ticks, State.tick, Nat.add_comm, Nat.add_left_comm]

theorem State.ticks_zero (s : State) : s.ticks 0 = s := by simp [State.ticks]

end Sys2Proof.Machine
end

