-- ==== Sys2Proof/Laws/Configured.lean ====
section
/-! SUPPORT. What a configured state gives: the bounds of its registers, and the images after a command. -/

namespace Sys2Proof.Machine

/-! ### Bounds -/

theorem State.Configured.img_wf {s : State} (h : s.Configured) : s.img.wf := h.2.2.2.2.2.1

theorem State.Configured.max_le {s : State} (h : s.Configured) : s.cfg.gMax ≤ 255 ∧ s.cfg.cMax ≤ 255 :=
  ⟨h.1.1.2, h.1.2.1.2⟩

theorem State.Configured.groups_le {s : State} (h : s.Configured) : s.groups ≤ s.cfg.gMax := h.2.2.2.1

theorem State.Configured.cards_le {s : State} (h : s.Configured) (g : Nat) : s.cards g ≤ s.cfg.cMax := by
  obtain ⟨-, -, -, -, h, -⟩ := h
  unfold State.cards
  rw [List.getD_eq_getElem?_getD]
  cases hg : s.cardCount[g]? with
  | none => simp
  | some n => simpa using h n (List.mem_of_getElem? hg)

/-- The payload fits the payload pointer (20_memory.md R44, 00_scope.md R8). -/
theorem State.Configured.len_lt {s : State} (h : s.Configured) : s.len < 2 ^ s.cfg.ptrW := by
  have key : ∀ n, s.base n ≤ 3 * (n * s.cfg.cMax) := by
    intro n
    induction n with
    | zero => rw [s.base_zero]; omega
    | succ n ih =>
      rw [s.base_succ]
      have := h.cards_le n
      have e : (n + 1) * s.cfg.cMax = n * s.cfg.cMax + s.cfg.cMax := Nat.succ_mul _ _
      omega
  have h1 := key s.groups
  have h2 := Nat.mul_le_mul_right s.cfg.cMax h.groups_le
  have h3 : 3 * s.cfg.gMax * s.cfg.cMax + 1 ≤ 2 ^ s.cfg.ptrW := h.1.2.2.2.2.2.2
  rw [Nat.mul_assoc] at h3
  unfold State.len
  omega

/-- The delays are at least 1 and fit the delay counter (00_scope.md R8). -/
theorem legal_delays {c : Params} (h : c.Legal) :
    (1 ≤ c.dLowCycles ∧ c.dLowCycles < 2 ^ c.cntW ∧ c.lowMinimum ≤ c.dLowCycles) ∧
    (1 ≤ c.dHighCycles ∧ c.dHighCycles < 2 ^ c.cntW ∧ c.highMinimum ≤ c.dHighCycles) := by
  obtain ⟨-, -, -, h1, h2, h, -⟩ := h
  omega

/-- Loading a delay truncates nothing (00_scope.md R8). -/
theorem legal_truncate {c : Params} (h : c.Legal) :
    truncate c.cntW c.dLowCycles = c.dLowCycles ∧ truncate c.cntW c.dHighCycles = c.dHighCycles :=
  ⟨Nat.mod_eq_of_lt (legal_delays h).1.2.1, Nat.mod_eq_of_lt (legal_delays h).2.2.1⟩

theorem decrement_eq {w n : Nat} (h : 1 ≤ n) (h' : n < 2 ^ w) : decrement w n = n - 1 := by
  unfold decrement
  rw [show n + (2 ^ w - 1) = (n - 1) + 2 ^ w by omega, Nat.add_mod_right, Nat.mod_eq_of_lt (by omega)]

theorem increment_eq {w n : Nat} (h : n + 1 < 2 ^ w) : increment w n = n + 1 := Nat.mod_eq_of_lt h

/-! ### Commands -/

theorem exec_clearGroup_valid {s : State} {grp : Nat} (hc : s.Configured) (h1 : 1 ≤ grp) (h2 : grp ≤ s.groups) :
    exec (.clearGroup grp) s =
      .next (({ s with img := groupClear s.cfg.cMax s.img (grp - 1) } : State).beginCommit 0) := by
  have := hc.groups_le
  show execClearGroup grp s = _
  rw [execClearGroup, withGroup_valid ⟨h1, h2⟩, withGroupSlots, if_pos (by omega)]

theorem exec_setChannel_valid {s : State} {grp crd : Nat} (p n : Nat) (hc : s.Configured) (h1 : 1 ≤ grp)
    (h2 : grp ≤ s.groups) (h3 : 1 ≤ crd) (h4 : crd ≤ s.cards (grp - 1)) :
    exec (.setChannel grp crd p n) s =
      .next (({ s with img := groupSet s.cfg.cMax s.img (grp - 1) (crd - 1) p n } : State).beginCommit
        (kindData (encodeChannel p n).2)) := by
  have := hc.groups_le
  have := hc.cards_le (grp - 1)
  show execSetChannel grp crd p n s = _
  rw [execSetChannel, withGroup_valid ⟨h1, h2⟩, withCard_valid ⟨h3, h4⟩, withSlot, if_pos (by omega)]

theorem exec_readImage_valid {s : State} {grp crd : Nat} (hc : s.Configured) (h1 : 1 ≤ grp) (h2 : grp ≤ s.groups)
    (h3 : 1 ≤ crd) (h4 : crd ≤ s.cards (grp - 1)) :
    exec (.readImage grp crd) s = .next (s.okResponse (imageData (s.image (grp - 1) (crd - 1)))) := by
  have := hc.groups_le
  have := hc.cards_le (grp - 1)
  show execReadImage grp crd s = _
  rw [execReadImage, withGroup_valid ⟨h1, h2⟩, withCard_valid ⟨h3, h4⟩, withSlot, if_pos (by omega)]

/-- An image after any command is as it was, or 0, or the encoder's, and in this last case the addressed card is the
only one of its group that is not 0. -/
theorem exec_image {i : Instr} {s t : State} (hc : s.Configured) (h : exec i s = .next t) {g c : Nat}
    (_ : g < s.cfg.gMax) (hcc : c < s.cfg.cMax) :
    t.image g c = s.image g c ∨ t.image g c = 0 ∨
    ∃ p n, t.groups = s.groups ∧ t.cards = s.cards ∧ g < s.groups ∧ c < s.cards g ∧
      t.image g c = (encodeChannel p n).1 ∧ ∀ c' < s.cfg.cMax, c' ≠ c → t.image g c' = 0 := by
  have hw := hc.img_wf
  have hm := hc.max_le
  rcases exec_next h with ⟨_, -, -, rfl⟩ | ⟨_, -, _, -, rfl⟩ | ⟨-, rfl⟩ | ⟨_, -, _, -, rfl⟩ |
    ⟨g', c', p, n, h1, h2, _, hc', -, rfl⟩ | ⟨_, _, -, -, -, -, -, rfl⟩
  · exact .inl rfl
  · simp only [State.image, State.okResponse_img]
    rw [loadImage_groupClear hw (by omega) _ (by omega)]
    split <;> simp
  · simp only [State.image, State.beginCommit_img]
    rw [loadImage_stackClear hw _ (by omega) (by omega)]
    split <;> simp
  · simp only [State.image, State.beginCommit_img]
    rw [loadImage_groupClear hw (by omega) _ (by omega)]
    split <;> simp
  · have im : ∀ x y, y < s.cfg.cMax → loadImage (groupSet s.cfg.cMax s.img g' c' p n) x y = _ :=
      fun x y hy => loadImage_groupSet hw (by omega) hc' p n (by omega)
    by_cases hx : g = g' ∧ c = c'
    · obtain ⟨rfl, rfl⟩ := hx
      refine .inr (.inr ⟨p, n, rfl, rfl, h1, h2, ?_, fun y hy hne => ?_⟩)
      · simp only [State.image, State.beginCommit_img]
        rw [im _ _ hcc, if_pos ⟨rfl, rfl⟩]
      · simp only [State.image, State.beginCommit_img]
        rw [im _ _ hy, if_neg (fun e => hne e.2), if_pos ⟨rfl, hy⟩]
    · simp only [State.image, State.beginCommit_img]
      rw [im _ _ hcc, if_neg hx]
      split <;> simp
  · exact .inl rfl

/-- Every image of the reset file is 0 (10_state.md R34). -/
theorem State.image_resetWith (c : Params) (g k : Nat) : (State.resetWith c).image g k = 0 := by
  simp [State.image, State.resetWith, loadImage]; rfl

/-! ### Steps, by what they do to the images and the topology -/

/-- A step is a reset edge, the `S_EXEC` cycle of the command, or leaves the images and the topology
(10_state.md R40). -/
theorem step_images {s t : State} (h : step s = .next t) :
    (∃ pins cycle trace, t = { State.resetWith s.cfg with pins := pins, cycle := cycle, trace := trace }) ∨
    (s.state = .exec ∧ s.nextPins.rst = false ∧ ∃ u, exec s.command s = .next u ∧ t = u.tick) ∨
    (s.state ≠ .exec ∧ t.cfg = s.cfg ∧ t.img = s.img ∧ t.numGroups = s.numGroups ∧ t.cardCount = s.cardCount) := by
  rcases step_next h with ⟨-, rfl⟩ | ⟨hr, u, hu, rfl⟩
  · exact .inl ⟨_, _, _, rfl⟩
  · rcases fsmEdge_next hu with h | h | h | h | h | h | h | h | h | h | h | h | h | h | h | h | h | h
    case inr.inr.inr.inl => exact .inr (.inl ⟨h.1, hr, u, h.2, rfl⟩)
    all_goals
      right; right
      aesop

end Sys2Proof.Machine
end

