-- ==== Sys2Proof/Laws/Decode.lean ====
section
/-! SUPPORT. The fields of an encoded word. -/

namespace Sys2Proof

/-- A field of a word placed by `fieldAt` reads back, and reads as 0 anywhere it does not reach. -/
theorem getLsbD_fieldAt (width lo v i : Nat) (h : i < 32) :
    (fieldAt width lo v).getLsbD i = (decide (lo ≤ i ∧ i < lo + width) && v.testBit (i - lo)) := by
  simp only [fieldAt, BitVec.getLsbD_shiftLeft, BitVec.getLsbD_setWidth, BitVec.getLsbD_ofNat, h, decide_true,
    Bool.true_and]
  by_cases h1 : lo ≤ i
  · by_cases h2 : i < lo + width
    · simp [h1, h2, show i - lo < 32 by omega, show i - lo < width by omega]
    · simp [h2, show ¬ i - lo < width by omega]
  · simp [h1, show i < lo by omega]

/-- A value below `2^n` has no bit at `n` or above, so its low `n` bits are all of it. -/
theorem toNat_eq_of_getLsbD {n v : Nat} (hv : v < 2 ^ n) {x : BitVec n}
    (h : ∀ i < n, x.getLsbD i = v.testBit i) : x.toNat = v := by
  have : x = BitVec.ofNat n v := BitVec.eq_of_getLsbD_eq fun i hi => by
    rw [h i hi, BitVec.getLsbD_ofNat]; simp [hi]
  rw [this, BitVec.toNat_ofNat, Nat.mod_eq_of_lt hv]

/-- A word's bits are those of the fields it is put together from. -/
theorem getLsbD_encode (i : Instr) (k : Nat) : (encode i).getLsbD k =
    ((fieldAt 3 29 i.opcode).getLsbD k ||
      match i with
      | .reserved000 => false
      | .addGroup count => (fieldAt 8 13 count).getLsbD k
      | .clearAll => false
      | .clearGroup grp => (fieldAt 8 21 grp).getLsbD k
      | .setChannel grp crd pos neg => (fieldAt 8 21 grp).getLsbD k || (fieldAt 8 13 crd).getLsbD k ||
          (fieldAt 5 8 pos).getLsbD k || (fieldAt 5 3 neg).getLsbD k
      | .readImage grp crd => (fieldAt 8 21 grp).getLsbD k || (fieldAt 8 13 crd).getLsbD k
      | .reserved110 => false
      | .reserved111 => false) := by
  cases i <;> simp only [encode, BitVec.getLsbD_or, BitVec.getLsbD_zero, BitVec.ofNat_eq_ofNat]

/-- Bits 31:29 of an encoded word are the command's opcode. -/
theorem opField_encode (i : Instr) : opField (encode i) = BitVec.ofNat 3 i.opcode := by
  refine BitVec.eq_of_getLsbD_eq fun k hk => ?_
  rw [opField, BitVec.getLsbD_extractLsb', getLsbD_encode]
  have h32 : 29 + k < 32 := by omega
  cases i <;>
    simp only [getLsbD_fieldAt _ _ _ _ h32, BitVec.getLsbD_ofNat, hk, decide_true, Bool.true_and, Bool.or_false,
      show (29 ≤ 29 + k ∧ 29 + k < 29 + 3) = True from eq_true (by omega),
      show (21 ≤ 29 + k ∧ 29 + k < 21 + 8) = False from eq_false (by omega),
      show (13 ≤ 29 + k ∧ 29 + k < 13 + 8) = False from eq_false (by omega),
      show (8 ≤ 29 + k ∧ 29 + k < 8 + 5) = False from eq_false (by omega),
      show (3 ≤ 29 + k ∧ 29 + k < 3 + 5) = False from eq_false (by omega),
      decide_false, Bool.false_and, show 29 + k - 29 = k by omega]

/-- A field of an encoded word is `v` where its bits are those of `v`. -/
theorem extractLsb'_encode {i : Instr} {lo width v : Nat} (hv : v < 2 ^ width)
    (h : ∀ k < width, (encode i).getLsbD (lo + k) = v.testBit k) : ((encode i).extractLsb' lo width).toNat = v :=
  toNat_eq_of_getLsbD hv fun k hk => by rw [BitVec.getLsbD_extractLsb']; simp [hk, h k hk]

/-- A field as arithmetic on the word's value. -/
theorem toNat_extractLsb' (w : Word) (lo width : Nat) :
    (w.extractLsb' lo width).toNat = w.toNat / 2 ^ lo % 2 ^ width := by
  simp [BitVec.extractLsb'_toNat, Nat.shiftRight_eq_div_pow]

/-- The opcode is the word's top three bits. -/
theorem opField_toFin (w : Word) (k : Fin 8) (h : w.toNat / 2 ^ 29 = k.val) : (opField w).toFin = k := by
  have := toNat_extractLsb' w 29 3
  have := w.isLt
  refine Fin.ext ?_
  simp only [opField, BitVec.val_toFin]
  omega

/-- Two words that agree under a mask agree on every field the mask covers. -/
theorem extractLsb'_congr {w v mask : Word} {lo width : Nat} (h : v &&& mask = w &&& mask)
    (hm : ∀ k < width, mask.getLsbD (lo + k) = true) : v.extractLsb' lo width = w.extractLsb' lo width := by
  refine BitVec.eq_of_getLsbD_eq fun k hk => ?_
  have := congrArg (fun x => x.getLsbD (lo + k)) h
  simp only [BitVec.getLsbD_and, hm k hk, Bool.and_true] at this
  simp [BitVec.getLsbD_extractLsb', this]

end Sys2Proof
end

