-- ==== Sys2Proof/Laws/Encoder.lean ====
section
/-! SUPPORT. What the channel encoder gives: its four cases, and the bits it never sets. -/

namespace Sys2Proof.Machine

/-- The four patterns, each with the condition it is recognised by (40_channel_encoder.md R81 to R84). -/
theorem encodeChannel_cases (p n : Nat) :
    (p = 21 ∧ encodeChannel p n = (0x000200, .currentSense)) ∨
    (p ≠ 21 ∧ p % 2 = 1 ∧ 1 ≤ p ∧ p ≤ 19 ∧ n = p + 1 ∧ encodeChannel p n = (pinImage p 0x10, .differential)) ∨
    (n = 0 ∧ 1 ≤ p ∧ p ≤ 20 ∧
      encodeChannel p n = (pinImage p (if p % 2 = 1 then 0x08 else 0x04), .singleEnded)) ∨
    (p ≠ 21 ∧ ¬ (p % 2 = 1 ∧ 1 ≤ p ∧ p ≤ 19 ∧ n = p + 1) ∧ ¬ (n = 0 ∧ 1 ≤ p ∧ p ≤ 20) ∧
      encodeChannel p n = (0, .unrecognised)) := by
  unfold encodeChannel
  split
  next h => exact .inl ⟨h, rfl⟩
  next h =>
    split
    next h' => exact .inr (.inl ⟨h, h'.1, h'.2.1, h'.2.2.1, h'.2.2.2, rfl⟩)
    next h' =>
      split
      next h'' => exact .inr (.inr (.inl ⟨h''.1, h''.2.1, h''.2.2, rfl⟩))
      next h'' => exact .inr (.inr (.inr ⟨h, h', h'', rfl⟩))

/-- A pin's image is one table bit in `B0` or `B1`. -/
theorem pinImage_cases {p : Nat} (h1 : 1 ≤ p) (h2 : p ≤ 20) (b2 : Byte) :
    ∃ t ∈ pinPairTable, (p ≤ 10 ∧ pinImage p b2 = packImage t 0 b2) ∨ (11 ≤ p ∧ pinImage p b2 = packImage 0 t b2) := by
  have key : ∀ i < 5, tableByte i ∈ pinPairTable := by decide
  unfold pinImage
  split
  next h => exact ⟨_, key ((p - 1) / 2) (by omega), .inl ⟨h, rfl⟩⟩
  next h => exact ⟨_, key ((p - 11) / 2) (by omega), .inr ⟨by omega, rfl⟩⟩

/-- The encoder sets no bit of `neverMask` (40_channel_encoder.md R87, 10_state.md R19). -/
theorem encodeChannel_never (p n : Nat) : (encodeChannel p n).1 &&& neverMask = 0 := by
  have key : ∀ t ∈ pinPairTable, ∀ b ∈ ([0x10, 0x08, 0x04] : List Byte),
      packImage t 0 b &&& neverMask = 0 ∧ packImage 0 t b &&& neverMask = 0 := by decide
  rcases encodeChannel_cases p n with ⟨-, h⟩ | ⟨-, -, h1, h2, -, h⟩ | ⟨-, h1, h2, h⟩ | ⟨-, -, -, h⟩
  · rw [h]; decide
  · obtain ⟨t, ht, ⟨-, e⟩ | ⟨-, e⟩⟩ := pinImage_cases h1 (by omega : p ≤ 20) 0x10
    · rw [h, e]; exact (key t ht 0x10 (by decide)).1
    · rw [h, e]; exact (key t ht 0x10 (by decide)).2
  · have hb : (if p % 2 = 1 then 0x08 else 0x04 : Byte) ∈ ([0x10, 0x08, 0x04] : List Byte) := by split <;> decide
    obtain ⟨t, ht, ⟨-, e⟩ | ⟨-, e⟩⟩ := pinImage_cases h1 h2 (if p % 2 = 1 then 0x08 else 0x04)
    · rw [h, e]; exact (key t ht _ hb).1
    · rw [h, e]; exact (key t ht _ hb).2
  · rw [h]; decide

end Sys2Proof.Machine
end

