-- ==== Sys2Proof/Laws/PerInstr.lean ====
section
/-! SUPPORT. The statements made per command. -/

namespace Sys2Proof.Laws.EncodedOpcode

/-- The encoded word carries the command's opcode in bits 31:29 (30_encoding.md R62, R77). -/
def Statement (i : Instr) : Prop := opField (encode i) = BitVec.ofNat 3 i.opcode

theorem reserved000 : Statement .reserved000 := opField_encode _

theorem addGroup (count : Nat) : Statement (.addGroup count) := opField_encode _

theorem clearAll : Statement .clearAll := opField_encode _

theorem clearGroup (grp : Nat) : Statement (.clearGroup grp) := opField_encode _

theorem setChannel (grp crd pos neg : Nat) : Statement (.setChannel grp crd pos neg) := opField_encode _

theorem readImage (grp crd : Nat) : Statement (.readImage grp crd) := opField_encode _

theorem reserved110 : Statement .reserved110 := opField_encode _

theorem reserved111 : Statement .reserved111 := opField_encode _

end Sys2Proof.Laws.EncodedOpcode
end

