-- ==== Sys2Proof/Laws/Runs.lean ====
section
/-! SUPPORT. Runs of several edges: the samples they see, the delays, and the transfer. -/

namespace Sys2Proof.Machine

/-! ### Samples along a run -/

theorem State.NoReset.next {s : State} {n : Nat} (h : s.NoReset (n + 1)) : s.nextPins.rst = false := by
  rw [← s.pinsAt_zero]; exact h 0 (by omega)

theorem State.NoReset.step {s t : State} {n : Nat} (h : s.NoReset (n + 1)) (e : step s = .next t) : t.NoReset n := by
  intro k hk
  rw [step_pinsAt e]
  exact h _ (by omega)

/-- After `k` steps, the sample `i` edges ahead is the one that was `i + k` ahead. -/
theorem runSteps_pinsAt {k : Nat} {s t : State} (h : runSteps k s = .next t) (i : Nat) :
    t.pinsAt i = s.pinsAt (i + k) := by
  induction k generalizing s with
  | zero => cases h; rfl
  | succ k ih =>
    simp only [runSteps] at h
    split at h
    next u hu => rw [ih h, step_pinsAt hu]; congr 1
    next => cases h
    next => cases h

/-! ### The delays (43_commit_fsm.md R122, R126) -/

/-- `S_WAIT_LOW` with `j + 1` cycles to go. -/
theorem runSteps_waitLow (j : Nat) {s : State} (hs : s.state = .waitLow) (hc : s.cnt = j + 1)
    (hw : j + 1 < 2 ^ s.cfg.cntW) (hr : s.NoReset (j + 1)) :
    (∀ k ≤ j, runSteps k s = .next { s.ticks k with cnt := j + 1 - k }) ∧
    runSteps (j + 1) s = .next { s.ticks (j + 1) with cnt := 1, ptr := 0, state := .xfer } := by
  induction j generalizing s with
  | zero =>
    refine ⟨fun k hk => ?_, ?_⟩
    · obtain rfl : k = 0 := by omega
      rw [s.ticks_zero, runSteps]
      congr 1
      cases s
      simp_all
    · have e : step s = .next { s.ticks 1 with cnt := 1, ptr := 0, state := .xfer } := by
        rw [step_of_noReset hr.next, fsmEdge, hs]
        simp only [waitLowEdge]
        rw [if_pos (by omega)]
        simp [afterEdge, State.tick, State.ticks, hc]
      rw [runSteps_succ e]
      rfl
  | succ j ih =>
    have e : step s = .next { s.ticks 1 with cnt := j + 1 } := by
      rw [step_of_noReset hr.next, fsmEdge, hs]
      simp only [waitLowEdge]
      rw [if_neg (by omega), decrement_eq (by omega) (by omega)]
      simp [afterEdge, State.tick, State.ticks, hc]
    obtain ⟨i1, i2⟩ := @ih { s.ticks 1 with cnt := j + 1 } hs rfl
      (by show j + 1 < 2 ^ s.cfg.cntW; omega) (hr.step e)
    refine ⟨fun k hk => ?_, ?_⟩
    · cases k with
      | zero =>
        rw [s.ticks_zero, runSteps]
        congr 1
        cases s
        simp_all
      | succ k =>
        rw [runSteps_succ e, i1 k (by omega)]
        simp [State.ticks, Nat.add_comm, Nat.add_left_comm]
    · rw [runSteps_succ e, i2]
      simp [State.ticks, Nat.add_comm, Nat.add_left_comm]

/-- `S_WAIT_HIGH` with `j + 1` cycles to go. -/
theorem runSteps_waitHigh (j : Nat) {s : State} (hs : s.state = .waitHigh) (hc : s.cnt = j + 1)
    (hw : j + 1 < 2 ^ s.cfg.cntW) (hr : s.NoReset (j + 1)) :
    (∀ k ≤ j, runSteps k s = .next { s.ticks k with cnt := j + 1 - k }) ∧
    runSteps (j + 1) s = .next { s.ticks (j + 1) with cnt := 1, state := .verify } := by
  induction j generalizing s with
  | zero =>
    refine ⟨fun k hk => ?_, ?_⟩
    · obtain rfl : k = 0 := by omega
      rw [s.ticks_zero, runSteps]
      congr 1
      cases s
      simp_all
    · have e : step s = .next { s.ticks 1 with cnt := 1, state := .verify } := by
        rw [step_of_noReset hr.next, fsmEdge, hs]
        simp only [waitHighEdge]
        rw [if_pos (by omega)]
        simp [afterEdge, State.tick, State.ticks, hc]
      rw [runSteps_succ e]
      rfl
  | succ j ih =>
    have e : step s = .next { s.ticks 1 with cnt := j + 1 } := by
      rw [step_of_noReset hr.next, fsmEdge, hs]
      simp only [waitHighEdge]
      rw [if_neg (by omega), decrement_eq (by omega) (by omega)]
      simp [afterEdge, State.tick, State.ticks, hc]
    obtain ⟨i1, i2⟩ := @ih { s.ticks 1 with cnt := j + 1 } hs rfl
      (by show j + 1 < 2 ^ s.cfg.cntW; omega) (hr.step e)
    refine ⟨fun k hk => ?_, ?_⟩
    · cases k with
      | zero =>
        rw [s.ticks_zero, runSteps]
        congr 1
        cases s
        simp_all
      | succ k =>
        rw [runSteps_succ e, i1 k (by omega)]
        simp [State.ticks, Nat.add_comm, Nat.add_left_comm]
    · rw [runSteps_succ e, i2]
      simp [State.ticks, Nat.add_comm, Nat.add_left_comm]

/-! ### The transfer (43_commit_fsm.md R123) -/

/-- One byte taken, with more to go or not. -/
theorem step_xfer_taken {s : State} {b : Byte} (hs : s.state = .xfer) (hr : s.nextPins.rst = false)
    (hb : s.payload[s.ptr]? = some b) (hy : s.nextPins.txReady = true) (hw : s.len < 2 ^ s.cfg.ptrW) :
    step s = .next { s.ticks 1 with
      ptr := if s.ptr + 1 = s.len then s.ptr else s.ptr + 1
      state := if s.ptr + 1 = s.len then .drain else .xfer
      trace := s.trace ++ [(s.cycle, .byte s.ptr b)] } := by
  have hlt : s.ptr < s.len := by
    obtain ⟨h, -⟩ := List.getElem?_eq_some_iff.1 hb
    rwa [s.length_payload] at h
  rw [step_of_noReset hr, fsmEdge, hs]
  simp only [xferEdge]
  rw [if_neg (by omega), s.memRead_eq_some.2 hb]
  simp only [hy, if_true]
  by_cases h : s.ptr + 1 = s.len
  · rw [if_pos (by omega), if_pos h, if_pos h]
    simp [afterEdge, State.tick, State.ticks, State.record]
  · rw [if_neg (by omega), increment_eq (by omega), if_neg h, if_neg h]
    simp [afterEdge, State.tick, State.ticks, State.record, hs]

/-- `S_XFER` with `j + 1` bytes to go and a transport that takes each at once. -/
theorem runSteps_xfer (j : Nat) {s : State} (hs : s.state = .xfer) (hp : s.ptr + j + 1 = s.len)
    (hw : s.len < 2 ^ s.cfg.ptrW) (hr : s.NoReset (j + 1)) (hy : ∀ k < j + 1, (s.pinsAt k).txReady = true) :
    runSteps (j + 1) s = .next { s.ticks (j + 1) with
      ptr := s.len - 1, state := .drain
      trace := s.trace ++ ((s.payload.drop s.ptr).zipIdx s.ptr).map
        (fun x => (s.cycle + (x.2 - s.ptr), Event.byte x.2 x.1)) } := by
  induction j generalizing s with
  | zero =>
    obtain ⟨b, -, hb⟩ := s.memRead_of_lt (i := s.ptr) (by omega)
    have e := step_xfer_taken hs hr.next hb (by rw [← s.pinsAt_zero]; exact hy 0 (by omega)) hw
    rw [if_pos (by omega), if_pos (by omega)] at e
    have hd : s.payload.drop s.ptr = [b] := by
      obtain ⟨h1, h2⟩ := List.getElem?_eq_some_iff.1 hb
      rw [List.drop_eq_getElem_cons h1, h2, List.drop_of_length_le (by rw [s.length_payload]; omega)]
    rw [runSteps_succ e, hd, runSteps]
    simp only [List.zipIdx_cons, List.zipIdx_nil, List.map_cons, List.map_nil, Nat.sub_self, Nat.add_zero]
    rw [show s.len - 1 = s.ptr by omega]
  | succ j ih =>
    obtain ⟨b, -, hb⟩ := s.memRead_of_lt (i := s.ptr) (by omega)
    have e := step_xfer_taken hs hr.next hb (by rw [← s.pinsAt_zero]; exact hy 0 (by omega)) hw
    rw [if_neg (by omega), if_neg (by omega)] at e
    have hd : s.payload.drop s.ptr = b :: s.payload.drop (s.ptr + 1) := by
      obtain ⟨h1, h2⟩ := List.getElem?_eq_some_iff.1 hb
      rw [List.drop_eq_getElem_cons h1, h2]
    obtain ⟨u, hu⟩ : ∃ u : State, u = { s.ticks 1 with
      ptr := s.ptr + 1, state := .xfer, trace := s.trace ++ [(s.cycle, .byte s.ptr b)] } := ⟨_, rfl⟩
    rw [← hu] at e
    have hul : u.len = s.len := by rw [hu]; rfl
    have hup : u.payload = s.payload := by rw [hu]; rfl
    have hc : u.ptr = s.ptr + 1 := by rw [hu]
    have hc' : u.cycle = s.cycle + 1 := by rw [hu]; rfl
    have hm : ((s.payload.drop (s.ptr + 1)).zipIdx (s.ptr + 1)).map
          (fun x => (s.cycle + 1 + (x.2 - (s.ptr + 1)), Event.byte x.2 x.1)) =
        ((s.payload.drop (s.ptr + 1)).zipIdx (s.ptr + 1)).map
          (fun x => (s.cycle + (x.2 - s.ptr), Event.byte x.2 x.1)) := by
      refine List.map_congr_left fun x hx => ?_
      have := List.le_snd_of_mem_zipIdx hx
      congr 1
      omega
    rw [runSteps_succ e, ih (by rw [hu]) (by rw [hul, hc]; omega) (by rw [hul, hu]; exact hw) (hr.step e)
      (fun k hk => by rw [step_pinsAt e]; exact hy _ (by omega)), hup, hul, hd, hc, hc', hm, hu]
    simp [State.ticks, Nat.add_comm, Nat.add_left_comm]

end Sys2Proof.Machine
end

