-- ==== Sys2Proof/Tests/Slice0.lean ====
section
/-! SUPPORT. The model's own tests. Expected values come from the spec's tables (30_encoding.md R78 and
95_test_vectors.md), whose row each test names, and from 10_state.md, 30_encoding.md and 43_commit_fsm.md where no row
is named. The last section holds a witness for the hypotheses of each statement. -/

namespace Sys2Proof.Tests

open Sys2Proof.Machine

/-! ### Well-formedness: one ill-formed term for each check (30_encoding.md R75) -/

theorem test_wf_addGroup_count : (Instr.addGroup 256).wf = false ∧ (Instr.addGroup 255).wf = true := by decide
theorem test_wf_clearGroup_grp : (Instr.clearGroup 256).wf = false ∧ (Instr.clearGroup 0).wf = true := by decide
theorem test_wf_setChannel_grp : (Instr.setChannel 256 1 1 0).wf = false := by decide
theorem test_wf_setChannel_crd : (Instr.setChannel 1 256 1 0).wf = false := by decide
theorem test_wf_setChannel_pos : (Instr.setChannel 1 1 32 0).wf = false := by decide
theorem test_wf_setChannel_neg : (Instr.setChannel 1 1 1 32).wf = false := by decide
theorem test_wf_readImage_grp : (Instr.readImage 256 1).wf = false := by decide
theorem test_wf_readImage_crd : (Instr.readImage 1 256).wf = false := by decide
theorem test_wf_largest : (Instr.setChannel 255 255 31 31).wf = true ∧ (Instr.readImage 0 0).wf = true := by decide

/-! ### Decoding: words written out from 30_encoding.md R62 -/

/-- `op` | `grp` | `crd` | `pos` | `neg` | ignored, field by field. -/
theorem test_decode_fields :
    decode (0b001#3 ++ 0b00000000#8 ++ 0b00000010#8 ++ 0b00000#5 ++ 0b00000#5 ++ 0b000#3) = .addGroup 2 ∧
    decode (0b010#3 ++ 0b00000000#8 ++ 0b00000000#8 ++ 0b00000#5 ++ 0b00000#5 ++ 0b000#3) = .clearAll ∧
    decode (0b011#3 ++ 0b00000001#8 ++ 0b00000000#8 ++ 0b00000#5 ++ 0b00000#5 ++ 0b000#3) = .clearGroup 1 ∧
    decode (0b100#3 ++ 0b00000010#8 ++ 0b00000011#8 ++ 0b10011#5 ++ 0b10100#5 ++ 0b000#3) = .setChannel 2 3 19 20 ∧
    decode (0b101#3 ++ 0b00000001#8 ++ 0b00000010#8 ++ 0b00000#5 ++ 0b00000#5 ++ 0b000#3) = .readImage 1 2 ∧
    decode (0b000#3 ++ 0b00000001#8 ++ 0b00000000#8 ++ 0b00001#5 ++ 0b00000#5 ++ 0b000#3) = .reserved000 ∧
    decode (0b110#3 ++ 0b00000000#8 ++ 0b00000000#8 ++ 0b00000#5 ++ 0b00000#5 ++ 0b000#3) = .reserved110 ∧
    decode (0b111#3 ++ 0b11111111#8 ++ 0b11111111#8 ++ 0b11111#5 ++ 0b11111#5 ++ 0b111#3) = .reserved111 := by decide

/-- 95_test_vectors.md T3, first half. -/
theorem test_decode_T3_topology :
    decode 0x20000000 = .addGroup 0 ∧ decode 0x20002000 = .addGroup 1 ∧ decode 0x20012000 = .addGroup 9 ∧
    decode 0x40000000 = .clearAll ∧ decode 0x60200000 = .clearGroup 1 ∧ decode 0x60400000 = .clearGroup 2 ∧
    decode 0xA0202000 = .readImage 1 1 ∧ decode 0xA0402000 = .readImage 2 1 ∧ decode 0xA0206000 = .readImage 1 3 ∧
    decode 0x00000000 = .reserved000 ∧ decode 0xC0000000 = .reserved110 ∧ decode 0xE0000000 = .reserved111 := by decide

/-- 95_test_vectors.md T3, the SET_CHANNEL rows. -/
theorem test_decode_T3_channels :
    decode 0x80202500 = .setChannel 1 1 5 0 ∧ decode 0x802035A8 = .setChannel 1 1 21 21 ∧
    decode 0x802033A0 = .setChannel 1 1 19 20 ∧ decode 0x80202218 = .setChannel 1 1 2 3 ∧
    decode 0x80205400 = .setChannel 1 2 20 0 ∧ decode 0x80206B00 = .setChannel 1 3 11 0 ∧
    decode 0x804053A0 = .setChannel 2 2 19 20 ∧ decode 0x80002100 = .setChannel 0 1 1 0 ∧
    decode 0x80200100 = .setChannel 1 0 1 0 := by decide

/-- 95_test_vectors.md T3, the vectors for ignored bits. -/
theorem test_decode_ignored_bits :
    decode 0x40000007 = .clearAll ∧ decode 0x5FFFFFFF = .clearAll ∧ decode 0x60200007 = .clearGroup 1 ∧
    decode 0x80202507 = .setChannel 1 1 5 0 ∧ decode 0x2FE04000 = .addGroup 2 ∧
    decode 0xA0205FFF = .readImage 1 2 := by decide

/-- spec/opcode_table.json: the match of each row, as the host numbers its bits. -/
theorem test_decodeTableWord :
    decodeTableWord 32 0x00000000 = some .reserved000 ∧ decodeTableWord 32 0x20000000 = some (.addGroup 0) ∧
    decodeTableWord 32 0x40000000 = some .clearAll ∧ decodeTableWord 32 0x60000000 = some (.clearGroup 0) ∧
    decodeTableWord 32 0x80000000 = some (.setChannel 0 0 0 0) ∧ decodeTableWord 32 0xA0000000 = some (.readImage 0 0) ∧
    decodeTableWord 32 0xC0000000 = some .reserved110 ∧ decodeTableWord 32 0xE0000000 = some .reserved111 := by decide

theorem test_decode_refuses_longer : decodeBits 40 0 = .error .tooLong ∧ decodeTableWord 40 0 = none := by decide

/-- 95_test_vectors.md T3, encoded. -/
theorem test_encode_T3 :
    encode (.addGroup 3) = 0x20006000 ∧ encode (.clearGroup 2) = 0x60400000 ∧
    encode (.setChannel 2 2 19 20) = 0x804053A0 ∧ encode (.setChannel 1 3 1 2) = 0x80206110 ∧
    encode (.readImage 2 2) = 0xA0404000 := by decide

/-! ### The assembler (30_encoding.md R75, R76; words of 95_test_vectors.md T3) -/

theorem test_assemble_line :
    assembleLine " add_group   2   ; 0x20004000".toList = .ok (some 0x20004000) ∧
    assembleLine "SET_CHANNEL 1, 1, 0x15, 21".toList = .ok (some 0x802035A8) ∧
    assembleLine ".word 0xC0000000".toList = .ok (some 0xC0000000) ∧
    assembleLine "  ; no command".toList = .ok none := by decide

theorem test_assemble_pseudo :
    assembleLine "SET_SE 1,2,20".toList = .ok (some 0x80205400) ∧
    assembleLine "SET_DIFF 1,1,7".toList = .ok (some 0x80202740) ∧
    assembleLine "SET_CURRENT 1,1".toList = .ok (some 0x80203500) ∧
    assembleLine "SET_SE 1,1,21".toList = .error .pseudoConstraint ∧
    assembleLine "SET_DIFF 1,1,2".toList = .error .pseudoConstraint := by decide

theorem test_assemble_refusals :
    assembleLine "CLEAR_GROUP 256".toList = .error .outOfRange ∧
    assembleLine "CLEAR_GROUP".toList = .error .operandCount ∧
    assembleLine "CLEAR_GROUP x".toList = .error .badOperand ∧
    assembleLine "RESERVED_000".toList = .error .unknownMnemonic ∧
    assembleLine "SET_CHANNEL 0, 0, 32, 0".toList = .error .outOfRange := by decide

/-! ### The channel encoder (95_test_vectors.md T2) -/

theorem test_encoder_single_ended :
    encodeChannel 1 0 = (0x800008, .singleEnded) ∧ encodeChannel 2 0 = (0x800004, .singleEnded) ∧
    encodeChannel 10 0 = (0x040004, .singleEnded) ∧ encodeChannel 11 0 = (0x008008, .singleEnded) ∧
    encodeChannel 19 0 = (0x000408, .singleEnded) ∧ encodeChannel 20 0 = (0x000404, .singleEnded) := by decide

theorem test_encoder_differential :
    encodeChannel 1 2 = (0x800010, .differential) ∧ encodeChannel 9 10 = (0x040010, .differential) ∧
    encodeChannel 11 12 = (0x008010, .differential) ∧ encodeChannel 19 20 = (0x000410, .differential) := by decide

/-- T2.3. -/
theorem test_encoder_corners :
    encodeChannel 21 0 = (0x000200, .currentSense) ∧ encodeChannel 21 31 = (0x000200, .currentSense) ∧
    encodeChannel 0 0 = (0, .unrecognised) ∧ encodeChannel 0 1 = (0, .unrecognised) ∧
    encodeChannel 2 1 = (0, .unrecognised) ∧ encodeChannel 20 21 = (0, .unrecognised) ∧
    encodeChannel 10 11 = (0, .unrecognised) ∧ encodeChannel 1 1 = (0, .unrecognised) ∧
    encodeChannel 22 0 = (0, .unrecognised) ∧ encodeChannel 5 22 = (0, .unrecognised) := by decide

/-! ### The commands: one step each from a small state (95_test_vectors.md T4) -/

/-- An input sample with nothing offered and nothing ready. -/
def quiet : Pins :=
  { rst := false, cmdValid := false, cmdWord := 0, txReady := false, txIdle := false, faultOk := false, rspReady := false }

/-- An input sample that never stalls the block. -/
def eager : Pins := { quiet with txReady := true, txIdle := true, faultOk := true, rspReady := true }

/-- The state after V10, without its history: one group of two cards, the first on pin 5. -/
def afterV10 : State :=
  { State.reset with
    numGroups := 1, cardCount := [2, 0, 0, 0], img := [(0, 0x10), (2, 0x08)]
    latchQ := [true, false, false, false], dataQ := 3 }

/-- `f` on the next state. -/
def onNext {α : Type} (o : Host.Outcome State Fault Refusal) (f : State → α) : Option α :=
  match o with
  | .next s => some (f s)
  | .fault _ => none
  | .refused _ => none

/-- The response and the next state of the FSM, then the topology and the images. -/
def result (s : State) : (BitVec 3 × Word × Fsm) × (BitVec 8 × List (BitVec 8) × Memory) :=
  ((s.statusQ, s.dataQ, s.state), (s.numGroups, s.cardCount, s.img))

/-- One step with the word placed in `S_EXEC`. -/
def run (s : State) (w : Nat) : Option ((BitVec 3 × Word × Fsm) × (BitVec 8 × List (BitVec 8) × Memory)) :=
  onNext (step (s.withFetchWord 32 w)) result

/-- V1. -/
theorem test_addGroup_V1 : run State.reset 0x20004000 = some ((0, 1, .resp), (1, [2, 0, 0, 0], [])) := by decide
/-- V4: the count is above `C_MAX`. -/
theorem test_addGroup_V4 : run State.reset 0x20012000 = some ((5, 0, .resp), (0, [0, 0, 0, 0], [])) := by decide
/-- V23. -/
theorem test_clearAll_V23 : run afterV10 0x40000000 = some ((0, 0, .unlatch), (1, [2, 0, 0, 0], [])) := by decide
/-- V21. -/
theorem test_clearGroup_V21 : run afterV10 0x60200000 = some ((0, 0, .unlatch), (1, [2, 0, 0, 0], [])) := by decide
/-- V22. -/
theorem test_clearGroup_V22 : run afterV10 0x60400000 =
    some ((3, 0, .resp), (1, [2, 0, 0, 0], [(0, 0x10), (2, 0x08)])) := by decide
/-- V11: card 2 takes 0x800010 and card 1 goes to 0. -/
theorem test_setChannel_V11 : run afterV10 0x80204110 =
    some ((0, 2, .unlatch), (1, [2, 0, 0, 0], [(3, 0x80), (5, 0x10)])) := by decide
/-- V17: ERR_GROUP wins over ERR_CARD. -/
theorem test_setChannel_V17 : run afterV10 0x80000100 =
    some ((3, 0, .resp), (1, [2, 0, 0, 0], [(0, 0x10), (2, 0x08)])) := by decide
/-- V18. -/
theorem test_readImage_V18 : run afterV10 0xA0202000 =
    some ((0, 0x00100008, .resp), (1, [2, 0, 0, 0], [(0, 0x10), (2, 0x08)])) := by decide
/-- V20. -/
theorem test_readImage_V20 : run afterV10 0xA0206000 =
    some ((4, 0, .resp), (1, [2, 0, 0, 0], [(0, 0x10), (2, 0x08)])) := by decide
/-- V29: ERR_OPCODE wins. -/
theorem test_reserved000_V29 : run State.reset 0x00200100 = some ((2, 0, .resp), (0, [0, 0, 0, 0], [])) := by decide
/-- V27. -/
theorem test_reserved110_V27 : run afterV10 0xC0000000 =
    some ((2, 0, .resp), (1, [2, 0, 0, 0], [(0, 0x10), (2, 0x08)])) := by decide
/-- V28. -/
theorem test_reserved111_V28 : run afterV10 0xE0000000 =
    some ((2, 0, .resp), (1, [2, 0, 0, 0], [(0, 0x10), (2, 0x08)])) := by decide

/-! ### The FSM: one step each (95_test_vectors.md T5) -/

/-- 10_state.md R27. -/
theorem test_fsm_codes :
    Fsm.code .idle = 0 ∧ Fsm.code .exec = 1 ∧ Fsm.code .unlatch = 2 ∧ Fsm.code .waitLow = 3 ∧ Fsm.code .xfer = 4 ∧
    Fsm.code .drain = 5 ∧ Fsm.code .latch = 6 ∧ Fsm.code .waitHigh = 7 ∧ Fsm.code .verify = 8 ∧ Fsm.code .resp = 9 ∧
    Fsm.code (.unused 0) = 10 ∧ Fsm.code (.unused 5) = 15 := by decide

/-- The block of T5 in FSM state `f`: one group of one card that holds 0x000200. -/
def inT5 (f : Fsm) (cnt ptr : Nat) (p : Pins) : State :=
  { State.resetWith { Params.vectors with gMax := 2, cMax := 2 } with
    numGroups := 1, cardCount := [1, 0], img := [(1, 0x02)], dataQ := 1, state := f, cnt := cnt, ptr := ptr
    pins := [p] }

/-- T5, cycle 2. -/
theorem test_unlatch_T5 : onNext (step { inT5 .unlatch 0 0 eager with latchQ := [true, true] })
    (fun s => (s.latchQ, s.cnt, s.state)) = some ([false, false], 2, .waitLow) := by decide
/-- T5, cycles 3 and 4. -/
theorem test_waitLow_T5 :
    onNext (step (inT5 .waitLow 2 0 eager)) (fun s => (s.cnt, s.state)) = some (1, .waitLow) ∧
    onNext (step (inT5 .waitLow 1 7 eager)) (fun s => (s.ptr, s.state)) = some (0, .xfer) := by decide
/-- T5, cycles 6 and 7: `Byte(1, 02)`, then the last byte. -/
theorem test_xfer_T5 :
    onNext (step (inT5 .xfer 1 1 eager)) (fun s => (s.ptr, s.state, s.trace)) =
      some (2, .xfer, [(0, .byte 1 0x02)]) ∧
    onNext (step (inT5 .xfer 1 2 eager)) (fun s => (s.state, s.trace)) = some (.drain, [(0, .byte 2 0x00)]) := by decide
/-- T5, cycle 9. -/
theorem test_latch_T5 : onNext (step (inT5 .latch 1 2 eager)) (fun s => (s.latchQ, s.cnt, s.state)) =
    some ([true, false], 1, .waitHigh) := by decide
/-- T5, cycle 11, and T6.2, cycle 15. -/
theorem test_verify_T5 :
    onNext (step (inT5 .verify 1 2 eager)) (fun s => (s.statusQ, s.state)) = some (0, .resp) ∧
    onNext (step (inT5 .verify 1 2 quiet)) (fun s => (s.statusQ, s.state)) = some (1, .resp) := by decide
/-- T5, cycles 6 and 7, T6.2, cycle 10. -/
theorem test_outputs_T5 :
    ((outputs (inT5 .xfer 1 1 eager)).txValid = true ∧ (outputs (inT5 .xfer 1 1 eager)).txData = 0x02 ∧
      (outputs (inT5 .xfer 1 1 eager)).txLast = false) ∧
    ((outputs (inT5 .xfer 1 2 eager)).txData = 0x00 ∧ (outputs (inT5 .xfer 1 2 eager)).txLast = true) ∧
    ((outputs (inT5 .drain 1 2 eager)).txValid = false ∧ (outputs (inT5 .drain 1 2 eager)).cmdReady = false) := by decide
/-- T6.4: reset in the middle of a transfer. -/
theorem test_reset_T6 : onNext (step { inT5 .xfer 1 1 { eager with rst := true } with latchQ := [false, false] })
    (fun s => (s.state, s.numGroups, s.img.length, s.trace)) = some (.idle, 0, 0, [(0, .reset)]) := by decide

/-! ### Where the machine stops (log entries 6, 7, 8): states no run reaches -/

theorem test_stop_absent_slot : execClearGroup 5 { afterV10 with numGroups := 5 } = .fault .imageSlotAbsent := rfl
theorem test_stop_payload_index : step (inT5 .xfer 1 3 eager) = .fault .payloadIndexAbsent := rfl
theorem test_stop_unused_code : step (inT5 (.unused 0) 0 0 eager) = .refused (.unusedStateCode 10) := rfl

/-! ### Witnesses: for each statement with hypotheses, values that meet them all -/

/-- `afterV10` in FSM state `f` with the next samples `ps`. -/
def inV10 (f : Fsm) (cnt ptr : Nat) (ps : List Pins) : State :=
  { afterV10 with state := f, cnt := cnt, ptr := ptr, pins := ps }

/-- Every group registered, the counts at both ends of their range. -/
def full : State := { State.reset with numGroups := 4, cardCount := [4, 0, 4, 1] }

/-- One slot left. -/
def almostFull : State := { State.reset with numGroups := 3, cardCount := [4, 0, 4, 0] }

/-- The next state of a step, for the witnesses. -/
def stepped (s : State) : State := (onNext (step s) id).getD s

theorem witness_DecodeEncodeRoundTrip :
    ∀ i ∈ [Instr.reserved000, .addGroup 255, .clearAll, .clearGroup 255, .setChannel 255 255 31 31, .readImage 255 255,
      .reserved110, .reserved111], i.wf = true := by decide

theorem witness_FieldsAreTheirBits :
    (0x1FFFFFFF#32).toNat / 2 ^ 29 = 0 ∧ (0x3FFFFFFF#32).toNat / 2 ^ 29 = 1 ∧ (0x5FFFFFFF#32).toNat / 2 ^ 29 = 2 ∧
    (0x7FFFFFFF#32).toNat / 2 ^ 29 = 3 ∧ (0x9FFFFFFF#32).toNat / 2 ^ 29 = 4 ∧ (0xA0000000#32).toNat / 2 ^ 29 = 5 ∧
    (0xC0000000#32).toNat / 2 ^ 29 = 6 ∧ (0xFFFFFFFF#32).toNat / 2 ^ 29 = 7 := by decide

theorem witness_IgnoredBitsDoNotMatter :
    (0x00000000#32 &&& 0xE0000000 = 0x00000000 ∧ 0x1FFFFFFF#32 &&& 0xE0000000 = 0x00000000#32 &&& 0xE0000000) ∧
    (0x20004000#32 &&& 0xE0000000 = 0x20000000 ∧ 0x2FE04000#32 &&& 0xE01FE000 = 0x20004000#32 &&& 0xE01FE000) ∧
    (0x40000000#32 &&& 0xE0000000 = 0x40000000 ∧ 0x5FFFFFFF#32 &&& 0xE0000000 = 0x40000000#32 &&& 0xE0000000) ∧
    (0x60200000#32 &&& 0xE0000000 = 0x60000000 ∧ 0x603FFFFF#32 &&& 0xFFE00000 = 0x60200000#32 &&& 0xFFE00000) ∧
    (0x80202500#32 &&& 0xE0000000 = 0x80000000 ∧ 0x80202507#32 &&& 0xFFFFFFF8 = 0x80202500#32 &&& 0xFFFFFFF8) ∧
    (0xA0204000#32 &&& 0xE0000000 = 0xA0000000 ∧ 0xA0205FFF#32 &&& 0xFFFFE000 = 0xA0204000#32 &&& 0xFFFFE000) ∧
    (0xC0000000#32 &&& 0xE0000000 = 0xC0000000 ∧ 0xDFFFFFFF#32 &&& 0xE0000000 = 0xC0000000#32 &&& 0xE0000000) ∧
    (0xE0000000#32 &&& 0xE0000000 = 0xE0000000 ∧ 0xFFFFFFFF#32 &&& 0xE0000000 = 0xE0000000#32 &&& 0xE0000000) := by
  decide

theorem witness_EveryWordDecodes : 32 < 33 := by decide

theorem witness_AssemblerWritesTheEncodedWord :
    (Instr.readImage 0 255).wf = true ∧ (Instr.readImage 0 256).wf = false := by decide

theorem witness_PseudoInstructionsExpandToRecognisedPairs :
    expand (.setSe 1 1 20) = .ok (.setChannel 1 1 20 0) ∧ expand (.setDiff 1 1 19) = .ok (.setChannel 1 1 19 20) ∧
    expand (.setCurrent 1 1) = .ok (.setChannel 1 1 21 0) := by decide

/-- The values where two patterns meet: pins 0, 1, 10, 11, 19, 20, 21 and 22. -/
theorem witness_EncoderFollowsPatternRules :
    21 = 21 ∧ (∀ p ∈ [1, 9, 11, 19], p % 2 = 1 ∧ 1 ≤ p ∧ p ≤ 19) ∧ (∀ p ∈ [1, 10, 11, 20], 1 ≤ p ∧ p ≤ 20) ∧
    ∀ x ∈ [(0, 0), (20, 21), (2, 1), (22, 0), (22, 23)],
      x.1 ≠ 21 ∧ ¬ (x.1 % 2 = 1 ∧ 1 ≤ x.1 ∧ x.1 ≤ 19 ∧ x.2 = x.1 + 1) ∧ ¬ (x.2 = 0 ∧ 1 ≤ x.1 ∧ x.1 ≤ 20) := by decide

theorem witness_AddGroupAppendsAGroup :
    (full.groups = full.cfg.gMax) ∧ (State.reset.cfg.cMax < 5) ∧
    (almostFull.Configured ∧ almostFull.groups ≠ almostFull.cfg.gMax ∧ 4 ≤ almostFull.cfg.cMax) := by decide

theorem witness_ClearAllZeroesEveryImage : afterV10.img.wf := by decide

theorem witness_ClearGroupZeroesOneGroup :
    (0 = 0 ∨ full.groups < 0) ∧ (5 = 0 ∨ full.groups < 5) ∧ (full.Configured ∧ 1 ≤ 4 ∧ 4 ≤ full.groups) := by decide

theorem witness_SetChannelSelectsOneCard :
    (0 = 0 ∨ full.groups < 0) ∧ (5 = 0 ∨ full.groups < 5) ∧
    (1 ≤ 1 ∧ 1 ≤ full.groups ∧ (0 = 0 ∨ full.cards 0 < 0)) ∧ (1 ≤ 2 ∧ 2 ≤ full.groups ∧ (1 = 0 ∨ full.cards 1 < 1)) ∧
    (full.Configured ∧ 1 ≤ 3 ∧ 3 ≤ full.groups ∧ 1 ≤ 4 ∧ 4 ≤ full.cards 2) := by decide

theorem witness_ReadImageReturnsTheImage :
    (5 = 0 ∨ full.groups < 5) ∧ (1 ≤ 4 ∧ 4 ≤ full.groups ∧ (2 = 0 ∨ full.cards 3 < 2)) ∧
    (full.Configured ∧ 1 ≤ 4 ∧ 4 ≤ full.groups ∧ 1 ≤ 1 ∧ 1 ≤ full.cards 3) := by decide

theorem witness_ReservedOpcodesAnswerErrOpcode :
    (0x1FFFFFFF#32).toNat / 2 ^ 29 = 0 ∧ (0xC0000000#32).toNat / 2 ^ 29 = 6 ∧ (0xFFFFFFFF#32).toNat / 2 ^ 29 = 7 := by
  decide

theorem witness_ChecksDecideInOrder : afterV10.Configured ∧ full.Configured := by decide

theorem witness_ErrorsHaveNoOtherEffect :
    ∃ t, exec (.readImage 1 3) afterV10 = .next t ∧ t.statusQ ≠ 0 := ⟨_, rfl, by decide⟩

theorem witness_OnlyCommitCommandsBeginTheProtocol :
    ∃ t u v, exec .clearAll afterV10 = .next t ∧ exec (.clearGroup 2) afterV10 = .next u ∧
      exec (.readImage 1 1) afterV10 = .next v := ⟨_, _, _, rfl, rfl, rfl⟩

theorem witness_UnrecognisedPairClearsTheGroup :
    afterV10.Configured ∧ 1 ≤ 1 ∧ 1 ≤ afterV10.groups ∧ 1 ≤ 2 ∧ 2 ≤ afterV10.cards 0 ∧
    kindCode (encodeChannel 2 1).2 = 0 := by decide

theorem witness_ClearAllIsIdempotent : afterV10.Configured := by decide

theorem witness_GroupSetIsOneUpdate : afterV10.img.wf ∧ 3 < afterV10.cfg.cMax := by decide

theorem witness_ReadAfterSetReturnsTheNewImage :
    afterV10.Configured ∧ 1 ≤ 1 ∧ 1 ≤ afterV10.groups ∧ 1 ≤ 2 ∧ 2 ≤ afterV10.cards 0 ∧ 1 ≤ 1 ∧
    1 ≤ afterV10.cards 0 := by decide

theorem witness_PayloadConcatenatesTheImages :
    1 ≤ afterV10.groups ∧ 0 < afterV10.groups ∧ 1 < afterV10.cards 0 ∧ 2 < 3 := by decide

theorem witness_MemReadIsThePayloadByte : 5 < afterV10.len ∧ afterV10.len ≤ 6 := by decide

theorem witness_ChannelImageAtItsPayloadOffset :
    afterV10.Configured ∧ 1 ≤ 1 ∧ 1 ≤ afterV10.groups ∧ 1 ≤ 2 ∧ 2 ≤ afterV10.cards 0 ∧ 2 < 3 := by decide

theorem witness_StepRunsTheDecodedCommand :
    ∃ s : State, s.state = .exec ∧ s.nextPins.rst = false ∧ (Instr.readImage 1 1).wf = true ∧
      s.cmdQ = encode (.readImage 1 1) ∧ ∃ t, exec (decode s.cmdQ) s = .next t :=
  ⟨{ inV10 .exec 0 0 [quiet] with cmdQ := 0xA0202000 }, by decide, by decide, by decide, by decide, _, rfl⟩

theorem witness_IdleAcceptsTheOfferedCommand :
    ∀ x ∈ [({ eager with cmdValid := true }, true), (eager, false)],
      (inV10 .idle 0 0 [x.1]).state = .idle ∧ (inV10 .idle 0 0 [x.1]).nextPins.rst = false ∧
      (inV10 .idle 0 0 [x.1]).nextPins.cmdValid = x.2 := by decide

theorem witness_UnlatchDrivesEveryLineLow :
    (inV10 .unlatch 0 0 [quiet]).state = .unlatch ∧ (inV10 .unlatch 0 0 [quiet]).nextPins.rst = false ∧
    (inV10 .unlatch 0 0 [quiet]).cfg.Legal := by decide

theorem witness_TransferTakesTheOfferedByte :
    ({ inV10 .xfer 1 0 [eager] with numGroups := 0 } : State).len = 0 ∧
    (∀ x ∈ [(0, quiet, false), (5, eager, true), (4, eager, true)],
      (inV10 .xfer 1 x.1 [x.2.1]).state = .xfer ∧ (inV10 .xfer 1 x.1 [x.2.1]).nextPins.rst = false ∧
      (inV10 .xfer 1 x.1 [x.2.1]).cfg.Legal ∧ (inV10 .xfer 1 x.1 [x.2.1]).len < 2 ^ 6 ∧
      (inV10 .xfer 1 x.1 [x.2.1]).payload[x.1]?.isSome = true ∧
      (inV10 .xfer 1 x.1 [x.2.1]).nextPins.txReady = x.2.2) ∧
    5 + 1 = afterV10.len ∧ 4 + 1 ≠ afterV10.len := by decide

theorem witness_DrainWaitsForIdle :
    ∀ x ∈ [(eager, true), (quiet, false)],
      (inV10 .drain 1 5 [x.1]).state = .drain ∧ (inV10 .drain 1 5 [x.1]).nextPins.rst = false ∧
      (inV10 .drain 1 5 [x.1]).nextPins.txIdle = x.2 := by decide

theorem witness_LatchDrivesRegisteredLinesHigh :
    (inV10 .latch 1 5 [quiet]).state = .latch ∧ (inV10 .latch 1 5 [quiet]).nextPins.rst = false ∧
    (inV10 .latch 1 5 [quiet]).cfg.Legal := by decide

theorem witness_VerifySamplesTheFaultLineOnce :
    (inV10 .verify 1 5 [quiet]).state = .verify ∧ (inV10 .verify 1 5 [quiet]).nextPins.rst = false := by decide

theorem witness_ResponseIsHeldUntilTaken :
    ∀ x ∈ [(eager, true), (quiet, false)],
      (inV10 .resp 1 5 [x.1]).state = .resp ∧ (inV10 .resp 1 5 [x.1]).nextPins.rst = false ∧
      (inV10 .resp 1 5 [x.1]).nextPins.rspReady = x.2 := by decide

theorem witness_ResetWinsAtEveryEdge : (inV10 .xfer 1 3 [{ eager with rst := true }]).nextPins.rst = true := by decide

theorem witness_OutputsAfterReset : (inV10 .resp 1 3 [{ eager with rst := true }]).nextPins.rst = true := by decide

theorem witness_UnusedStateCodesAreRefused :
    ∀ x ∈ [(quiet, false), ({ quiet with rst := true }, true)],
      (inV10 (.unused 5) 0 0 [x.1]).state = .unused 5 ∧ (inV10 (.unused 5) 0 0 [x.1]).nextPins.rst = x.2 := by decide

theorem witness_OutputsByState :
    (outputs (inV10 .drain 1 5 [])).txValid = false ∧ (outputs (inV10 .xfer 1 5 [])).txValid = true ∧
    (inV10 .xfer 1 5 []).payload[5]? = some 0x00 ∧ (inV10 .xfer 1 0 []).payload[0]? = some 0x10 := by decide

/-- One change for each clause. -/
theorem witness_WriteMatrix :
    (∀ s ∈ [{ inV10 .exec 0 0 [quiet] with cmdQ := 0x40000000 }, { inV10 .exec 0 0 [quiet] with cmdQ := 0x20000000 },
      inV10 .idle 0 0 [{ quiet with cmdValid := true, cmdWord := 1 }], inV10 .unlatch 0 0 [quiet],
      inV10 .waitLow 1 5 [quiet], inV10 .xfer 1 0 [eager], inV10 .verify 1 5 [quiet]],
      (onNext (step s) id).isSome = true ∧ s.nextPins.rst = false) ∧
    (stepped { inV10 .exec 0 0 [quiet] with cmdQ := 0x40000000 }).img ≠ afterV10.img ∧
    (stepped { inV10 .exec 0 0 [quiet] with cmdQ := 0x20000000 }).numGroups ≠ afterV10.numGroups ∧
    (stepped { inV10 .exec 0 0 [quiet] with cmdQ := 0x20000000 }).dataQ ≠ afterV10.dataQ ∧
    (stepped (inV10 .idle 0 0 [{ quiet with cmdValid := true, cmdWord := 1 }])).cmdQ ≠ afterV10.cmdQ ∧
    (stepped (inV10 .unlatch 0 0 [quiet])).cnt ≠ 0 ∧
    (stepped (inV10 .unlatch 0 0 [quiet])).latchQ ≠ afterV10.latchQ ∧
    (stepped (inV10 .waitLow 1 5 [quiet])).ptr ≠ 5 ∧ (stepped (inV10 .xfer 1 0 [eager])).ptr ≠ 0 ∧
    (stepped (inV10 .verify 1 5 [quiet])).statusQ ≠ afterV10.statusQ := by decide

theorem witness_EventsByState :
    ∃ t, step (inV10 .xfer 1 5 [eager]) = .next t ∧ (inV10 .xfer 1 5 [eager]).nextPins.rst = false :=
  ⟨_, rfl, by decide⟩

theorem witness_InputsAreReadInTheirOwnState :
    ∀ f ∈ [Fsm.exec, .unlatch, .waitLow, .latch, .waitHigh], (inV10 f 1 0 []).state = f ∧ eager.rst = quiet.rst ∧
      f ≠ .idle ∧ f ≠ .xfer ∧ f ≠ .drain ∧ f ≠ .verify ∧ f ≠ .resp := by decide

/-- In each state that reads an input, two samples that agree on it and differ elsewhere. -/
theorem witness_InputsAreReadInTheirOwnState_reading :
    (quiet.cmdValid = eager.cmdValid ∧ quiet.cmdValid = false) ∧
    (eager.txReady = ({ quiet with txReady := true } : Pins).txReady) ∧
    (eager.txIdle = ({ quiet with txIdle := true } : Pins).txIdle) ∧
    (eager.faultOk = ({ quiet with faultOk := true } : Pins).faultOk) ∧
    (eager.rspReady = ({ quiet with rspReady := true } : Pins).rspReady) := by decide

theorem witness_WireBitOrderIsNotRead :
    (∃ t, step (inV10 .xfer 1 5 [eager]) = .next t) ∧
    step (inV10 .xfer 1 6 [eager]) = .fault .payloadIndexAbsent ∧
    step (inV10 (.unused 5) 0 0 [quiet]) = .refused (.unusedStateCode 15) :=
  ⟨⟨_, rfl⟩, rfl, rfl⟩

theorem witness_OfferIsStableUntilTaken :
    (inV10 .xfer 1 5 [quiet]).SequencerOk ∧ (outputs (inV10 .xfer 1 5 [quiet])).txValid = true ∧
    (inV10 .xfer 1 5 [quiet]).nextPins.rst = false ∧ (inV10 .xfer 1 5 [quiet]).nextPins.txReady = false := by decide

theorem witness_WaitsAreUnbounded :
    (∀ f ∈ [Fsm.xfer, .drain, .resp], (inV10 f 1 5 [quiet, quiet]).NoReset 2 ∧ (inV10 f 1 5 []).state = f) ∧
    5 < (inV10 .xfer 1 5 []).len ∧
    ∀ k < 2, ((inV10 .xfer 1 5 [quiet, quiet]).pinsAt k).txReady = false ∧
      ((inV10 .drain 1 5 [quiet, quiet]).pinsAt k).txIdle = false ∧
      ((inV10 .resp 1 5 [quiet, quiet]).pinsAt k).rspReady = false := by decide

theorem witness_StatusCodesStayDefined :
    ∃ t, step (inV10 .verify 1 5 [quiet]) = .next t ∧ (inV10 .verify 1 5 [quiet]).statusQ.toNat ≤ 5 ∧ t.statusQ = 1 ∧
      (inV10 .verify 1 5 [quiet]).statusQ ≠ 1 := ⟨_, rfl, by decide, by decide, by decide⟩

theorem witness_LowDelayIsExact :
    (inV10 .unlatch 0 0 [quiet, eager, quiet]).cfg.Legal ∧ (inV10 .unlatch 0 0 [quiet, eager, quiet]).state = .unlatch ∧
    (inV10 .unlatch 0 0 [quiet, eager, quiet]).NoReset (afterV10.cfg.dLowCycles + 1) ∧ 1 < afterV10.cfg.dLowCycles := by
  decide

theorem witness_HighDelayThenOneSample :
    (inV10 .latch 1 5 [quiet, eager, quiet]).cfg.Legal ∧ (inV10 .latch 1 5 [quiet, eager, quiet]).state = .latch ∧
    (inV10 .latch 1 5 [quiet, eager, quiet]).NoReset (afterV10.cfg.dHighCycles + 2) ∧ 0 < afterV10.cfg.dHighCycles := by
  decide

/-- One command at the port and two more samples. -/
def offered (w : Word) : State := inV10 .idle 0 0 [{ eager with cmdValid := true, cmdWord := w }, quiet, eager]

/-- READ_IMAGE 1,1 (V18). -/
theorem witness_NonCommitCommandTakesThreeEdges :
    ∃ e : State, (offered 0xA0202000).state = .idle ∧ (offered 0xA0202000).NoReset 3 ∧
      ((offered 0xA0202000).pinsAt 0).cmdValid = true ∧ ((offered 0xA0202000).pinsAt 0).cmdWord = 0xA0202000 ∧
      ((offered 0xA0202000).pinsAt 2).rspReady = true ∧
      exec (decode 0xA0202000) { (offered 0xA0202000).ticks 1 with
        cmdQ := 0xA0202000, state := .exec
        trace := (offered 0xA0202000).trace ++ [((offered 0xA0202000).cycle, .accept 0xA0202000)] } = .next e ∧
      commits (decode 0xA0202000) = false :=
  ⟨_, by decide, by decide, by decide, by decide, by decide, rfl, by decide⟩

/-- SET_CHANNEL 1,3,1,2 (V13), an error. -/
theorem witness_NonCommitCommandTakesThreeEdges_error :
    ∃ e : State, (offered 0x80206110).state = .idle ∧ (offered 0x80206110).NoReset 3 ∧
      ((offered 0x80206110).pinsAt 0).cmdValid = true ∧ ((offered 0x80206110).pinsAt 0).cmdWord = 0x80206110 ∧
      ((offered 0x80206110).pinsAt 2).rspReady = true ∧
      exec (decode 0x80206110) { (offered 0x80206110).ticks 1 with
        cmdQ := 0x80206110, state := .exec
        trace := (offered 0x80206110).trace ++ [((offered 0x80206110).cycle, .accept 0x80206110)] } = .next e ∧
      e.statusQ ≠ 0 :=
  ⟨_, by decide, by decide, by decide, by decide, by decide, rfl, by decide⟩

/-- SET_CHANNEL 1,2,1,2 (V11) with an environment that never stalls: 16 edges. -/
def commitStart : State :=
  inV10 .idle 0 0 ({ eager with cmdValid := true, cmdWord := 0x80204110 } :: List.replicate 15 eager)

theorem witness_CommitCommandRunsTheProtocol :
    ∃ (e : State) (n m : Nat), commitStart.BlockInv ∧ commitStart.state = .idle ∧
      (commitStart.pinsAt 0).cmdValid = true ∧ (commitStart.pinsAt 0).cmdWord = 0x80204110 ∧
      exec (decode 0x80204110) { commitStart.ticks 1 with
        cmdQ := 0x80204110, state := .exec
        trace := commitStart.trace ++ [(commitStart.cycle, .accept 0x80204110)] } = .next e ∧
      commits (decode 0x80204110) = true ∧ e.statusQ = 0 ∧
      m = max e.len 1 ∧ n = commitStart.cfg.dLowCycles + commitStart.cfg.dHighCycles + m + 6 ∧ n = 15 ∧
      commitStart.NoReset (n + 1) ∧
      ∀ k ≤ n, (commitStart.pinsAt k).txReady = true ∧ (commitStart.pinsAt k).txIdle = true ∧
        (commitStart.pinsAt k).rspReady = true :=
  ⟨_, 15, 6, ⟨by decide, by decide, by decide, by decide, by decide, by decide, by decide⟩,
    by decide, by decide, by decide, rfl, by decide, by decide, by decide, by decide, rfl, by decide, by decide⟩

theorem witness_EveryStepKeepsTheBlockInvariant :
    afterV10.BlockInv ∧ full.BlockInv ∧
    ({ inV10 .xfer 1 5 [eager] with latchQ := [false, false, false, false] } : State).BlockInv :=
  ⟨⟨by decide, by decide, by decide, by decide, by decide, by decide, by decide⟩,
    ⟨by decide, by decide, by decide, by decide, by decide, by decide, by decide⟩,
    ⟨by decide, by decide, by decide, by decide, by decide, by decide, by decide⟩⟩

theorem witness_ResetMeetsTheInvariants :
    Params.vectors.Legal ∧
    ({ gMax := 255, cMax := 255, fClkHz := 1000, dLowCycles := 40, dHighCycles := 5, cntW := 6, ptrW := 18,
       wireBitOrder := .lsbFirst } : Params).Legal := by decide

/-- A transfer with one of its six bytes taken. -/
def midTransfer : State :=
  { inV10 .xfer 1 1 [eager] with
    latchQ := [false, false, false, false], trace := [(2, .latchAll false), (5, .byte 0 0x10)] }

theorem witness_EveryStepKeepsTheTransferInvariant :
    midTransfer.BlockInv ∧ midTransfer.TransferInv ∧ (onNext (step midTransfer) id).isSome = true :=
  ⟨⟨by decide, by decide, by decide, by decide, by decide, by decide, by decide⟩, by decide, by decide⟩

theorem witness_EveryStepKeepsMutualExclusion :
    afterV10.Configured ∧ afterV10.AtMostOneSelected ∧
    (onNext (step (afterV10.withFetchWord 32 0x80204110)) id).isSome = true :=
  ⟨by decide, by decide, by decide⟩

theorem witness_EveryStepKeepsUnconfiguredSlotsZero :
    afterV10.Configured ∧ afterV10.UnconfiguredZero ∧
    (onNext (step (afterV10.withFetchWord 32 0x20008000)) id).isSome = true := by decide

theorem witness_EveryStepKeepsUnregisteredLinesLow :
    afterV10.Configured ∧ afterV10.UnregisteredLow ∧
    (onNext (step (inV10 .latch 1 5 [eager])) id).isSome = true := by decide

theorem witness_EveryStepKeepsNeverBitsZero :
    afterV10.Configured ∧ afterV10.NeverBitsZero ∧
    (onNext (step (afterV10.withFetchWord 32 0x80204110)) id).isSome = true := by decide

theorem witness_EveryStepKeepsMemoryCanonical :
    afterV10.img.wf ∧ (onNext (step (afterV10.withFetchWord 32 0x80204110)) id).isSome = true := by decide

theorem witness_EveryStepKeepsTheConfiguration :
    almostFull.Configured ∧ (onNext (step (almostFull.withFetchWord 32 0x20008000)) id).isSome = true := by decide

/-- After reset with the acceptance of CLEAR_ALL; a count that fits and one that does not. -/
theorem witness_AfterResetOnlyAddGroupChangesTheTopology :
    (let s := State.reset.withFetchWord 32 0x40000000
     s.Configured ∧ s.img = [] ∧ s.numGroups = 0 ∧ s.cardCount = List.replicate s.cfg.gMax 0) ∧
    4 ≤ Params.vectors.cMax ∧ Params.vectors.cMax < 255 := by decide

end Sys2Proof.Tests
end

section
/-! SUPPORT. The state family: the reset state, what a command leaves of the topology and the images, the write matrix,
and the invariants every step keeps (10_state.md). -/

namespace Sys2Proof.Machine

/-! ### The reset state (10_state.md R34) -/

@[simp] theorem State.groups_resetWith (c : Params) : (State.resetWith c).groups = 0 := by simp [State.groups]

theorem State.configured_resetWith {c : Params} (h : c.Legal) : (State.resetWith c).Configured := by
  have counts : ∀ n ∈ (State.resetWith c).cardCount, n.toNat ≤ c.cMax := fun n hn => by
    rw [List.eq_of_mem_replicate hn]; simp
  exact ⟨h, by simp, by simp, by simp, counts, Memory.wf_nil, by simp⟩

theorem State.unregisteredLow_resetWith (c : Params) : (State.resetWith c).UnregisteredLow :=
  fun _ hg _ => List.getD_replicate _ hg

theorem State.unconfiguredZero_resetWith (c : Params) : (State.resetWith c).UnconfiguredZero :=
  fun g _ k _ _ => State.image_resetWith c g k

theorem State.atMostOneSelected_resetWith (c : Params) : (State.resetWith c).AtMostOneSelected :=
  fun g _ k _ _ _ h _ => absurd (State.image_resetWith c g k) h

theorem State.neverBitsZero_resetWith (c : Params) : (State.resetWith c).NeverBitsZero :=
  fun g _ k _ => by rw [State.image_resetWith]; exact BitVec.zero_and

theorem State.sequencerOk_resetWith (c : Params) : (State.resetWith c).SequencerOk := by
  simp [State.SequencerOk]

theorem State.linesOk_resetWith (c : Params) : (State.resetWith c).LinesOk := by
  simp [State.LinesOk]

theorem State.blockInv_resetWith {c : Params} (h : c.Legal) : (State.resetWith c).BlockInv :=
  ⟨State.configured_resetWith h, State.unconfiguredZero_resetWith c, State.atMostOneSelected_resetWith c,
    State.neverBitsZero_resetWith c, State.unregisteredLow_resetWith c, State.sequencerOk_resetWith c,
    State.linesOk_resetWith c⟩

/-- No commit is under way after reset. -/
theorem State.transferInv_resetWith (c : Params) : (State.resetWith c).TransferInv := by
  simp [State.TransferInv]

theorem vectors_legal : Params.vectors.Legal := by decide

/-- Settles O52: the reset state is idle, its images and counts are 0 and its lines low. -/
theorem resetMeetsTheInvariants : Obligations.ResetMeetsTheInvariants :=
  ⟨fun c h => ⟨State.blockInv_resetWith h, State.transferInv_resetWith c⟩,
    State.blockInv_resetWith vectors_legal, State.transferInv_resetWith Params.vectors⟩

/-- Settles O36, from what a reset edge writes. -/
theorem resetWinsAtEveryEdge : Obligations.ResetWinsAtEveryEdge :=
  fun _ hr => step_of_reset hr

/-- Settles O38: the cycle of an unused code is a refusal by that code, and a reset edge reads no state. -/
theorem unusedStateCodesAreRefused : Obligations.UnusedStateCodesAreRefused := by
  intro s k hs
  constructor
  · intro hr
    rw [step_of_noReset hr, fsmEdge, hs]
    rfl
  · intro hr
    exact ⟨_, step_of_reset hr, rfl⟩

/-! ### What a command leaves -/

/-- ADD_GROUP alone writes the topology, and then by appending one group (10_state.md R40, 42_stack_commands.md R107). -/
theorem exec_topology {i : Instr} {s t : State} (h : exec i s = .next t) :
    (t.numGroups = s.numGroups ∧ t.cardCount = s.cardCount) ∨
    ∃ count, i = .addGroup count ∧ s.groups < s.cfg.gMax ∧ count ≤ s.cfg.cMax ∧
      t.numGroups = BitVec.ofNat 8 (s.groups + 1) ∧ t.cardCount = s.cardCount.set s.groups (BitVec.ofNat 8 count) := by
  rcases exec_next h with ⟨_, -, -, rfl⟩ | ⟨count, hi, hg, hc, rfl⟩ | ⟨-, rfl⟩ | ⟨_, -, -, -, rfl⟩ |
    ⟨_, _, _, _, -, -, -, -, -, rfl⟩ | ⟨_, _, -, -, -, -, -, rfl⟩
  · exact .inl ⟨rfl, rfl⟩
  · exact .inr ⟨count, hi, hg, hc, rfl, rfl⟩
  all_goals exact .inl ⟨rfl, rfl⟩

/-- The topology after a command in numbers: as it was, or one more group and the counts of the others kept. -/
theorem exec_groups {i : Instr} {s t : State} (hc : s.Configured) (h : exec i s = .next t) :
    (t.groups = s.groups ∧ t.cards = s.cards) ∨
    (t.groups = s.groups + 1 ∧ s.groups < s.cfg.gMax ∧ ∀ g, g ≠ s.groups → t.cards g = s.cards g) := by
  rcases exec_topology h with ⟨hn, hcc⟩ | ⟨count, -, hg, -, hn, hcc⟩
  · exact .inl ⟨by simp [State.groups, hn], by funext g; simp [State.cards, hcc]⟩
  · have := hc.max_le
    refine .inr ⟨?_, hg, fun g hne => ?_⟩
    · rw [State.groups, hn, BitVec.toNat_ofNat, Nat.mod_eq_of_lt (by omega)]
    · simp [State.cards, hcc, List.getElem?_set_ne (Ne.symm hne)]

/-- Only the commands of 10_state.md R40 write the image file. -/
theorem exec_img_ne {i : Instr} {s t : State} (h : exec i s = .next t) (hne : t.img ≠ s.img) :
    (∃ count, i = .addGroup count) ∨ i = .clearAll ∨ (∃ grp, i = .clearGroup grp) ∨
      ∃ grp crd pos neg, i = .setChannel grp crd pos neg := by
  rcases exec_next h with ⟨_, -, -, rfl⟩ | ⟨count, hi, -, -, -⟩ | ⟨hi, -⟩ | ⟨g, -, -, hi, -⟩ |
    ⟨g, c, p, n, -, -, -, -, hi, -⟩ | ⟨_, _, -, -, -, -, -, rfl⟩
  · exact absurd rfl hne
  · exact .inl ⟨count, hi⟩
  · exact .inr (.inl hi)
  · exact .inr (.inr (.inl ⟨_, hi⟩))
  · exact .inr (.inr (.inr ⟨_, _, _, _, hi⟩))
  · exact absurd rfl hne

theorem exec_img_wf {i : Instr} {s t : State} (hw : s.img.wf) (h : exec i s = .next t) : t.img.wf := by
  rcases exec_next h with ⟨_, -, -, rfl⟩ | ⟨_, -, -, -, rfl⟩ | ⟨-, rfl⟩ | ⟨_, -, -, -, rfl⟩ |
    ⟨_, _, _, _, -, -, -, -, -, rfl⟩ | ⟨_, _, -, -, -, -, -, rfl⟩
  · exact hw
  · exact groupClear_wf hw _ _
  · exact stackClear_wf hw _ _
  · exact groupClear_wf hw _ _
  · exact groupSet_wf hw _ _ _ _ _
  · exact hw

/-- A command lists no byte but those of existing slots. -/
theorem mem_exec_img {i : Instr} {s t : State} (h : exec i s = .next t) {y : Host.Cell} (hy : y ∈ t.img) :
    y ∈ s.img ∨ ∃ g < s.cfg.gMax, ∃ c < s.cfg.cMax, y.1 / 3 = 256 * g + c := by
  rcases exec_next h with ⟨_, -, -, rfl⟩ | ⟨_, -, hg, -, rfl⟩ | ⟨-, rfl⟩ | ⟨g, -, hg, -, rfl⟩ |
    ⟨g, _, _, _, -, -, hg, hc, -, rfl⟩ | ⟨_, _, -, -, -, -, -, rfl⟩
  · exact .inl hy
  · exact (mem_groupClear hy).imp_right fun hs => ⟨_, hg, hs⟩
  · exact mem_stackClear hy
  · exact (mem_groupClear hy).imp_right fun hs => ⟨g, hg, hs⟩
  · exact (mem_groupSet hc hy).imp_right fun hs => ⟨g, hg, hs⟩
  · exact .inl hy

/-- `S_EXEC` ends in a response or in the commit (43_commit_fsm.md R120). -/
theorem exec_state {i : Instr} {s t : State} (h : exec i s = .next t) : t.state = .resp ∨ t.state = .unlatch := by
  rcases exec_next h with ⟨_, -, -, rfl⟩ | ⟨_, -, -, -, rfl⟩ | ⟨-, rfl⟩ | ⟨_, -, -, -, rfl⟩ |
    ⟨_, _, _, _, -, -, -, -, -, rfl⟩ | ⟨_, _, -, -, -, -, -, rfl⟩ <;> simp

theorem withGroup_defined {grp : Nat} {s : State} {k : Nat → Host.Outcome State Fault Refusal}
    (hk : 1 ≤ grp → grp ≤ s.groups → ∃ t, k (grp - 1) = .next t) : ∃ t, withGroup grp s k = .next t := by
  by_cases hg : 1 ≤ grp ∧ grp ≤ s.groups
  · rw [withGroup_valid hg]
    exact hk hg.1 hg.2
  · exact ⟨_, withGroup_invalid (by omega) k⟩

theorem withCard_defined {g crd : Nat} {s : State} {k : Nat → Host.Outcome State Fault Refusal}
    (hk : 1 ≤ crd → crd ≤ s.cards g → ∃ t, k (crd - 1) = .next t) : ∃ t, withCard g crd s k = .next t := by
  by_cases hc : 1 ≤ crd ∧ crd ≤ s.cards g
  · rw [withCard_valid hc]
    exact hk hc.1 hc.2
  · exact ⟨_, withCard_invalid (by omega) k⟩

theorem withGroupSlots_present {g : Nat} {s : State} (h : g < s.cfg.gMax) (k : Host.Outcome State Fault Refusal) :
    withGroupSlots g s k = k := if_pos h

theorem withSlot_present {g c : Nat} {s : State} (hg : g < s.cfg.gMax) (hc : c < s.cfg.cMax)
    (k : Host.Outcome State Fault Refusal) : withSlot g c s k = k := if_pos ⟨hg, hc⟩

/-- In a configured state no command names an absent slot (20_memory.md R41), so none stops. -/
theorem exec_defined {s : State} (hc : s.Configured) (i : Instr) : ∃ t, exec i s = .next t := by
  have hgroups := hc.groups_le
  cases i with
  | reserved000 => exact ⟨_, rfl⟩
  | reserved110 => exact ⟨_, rfl⟩
  | reserved111 => exact ⟨_, rfl⟩
  | clearAll => exact ⟨_, rfl⟩
  | addGroup count =>
    by_cases hf : s.groups = s.cfg.gMax ∨ s.cfg.cMax < count
    · exact ⟨_, if_pos hf⟩
    · exact ⟨_, (if_neg hf).trans (withGroupSlots_present (by omega) _)⟩
  | clearGroup grp =>
    show ∃ t, execClearGroup grp s = .next t
    unfold execClearGroup
    exact withGroup_defined fun _ _ => ⟨_, withGroupSlots_present (by omega) _⟩
  | setChannel grp crd p n =>
    have hcards := hc.cards_le (grp - 1)
    show ∃ t, execSetChannel grp crd p n s = .next t
    unfold execSetChannel
    exact withGroup_defined fun _ _ => withCard_defined fun _ _ =>
      ⟨_, withSlot_present (by omega) (by omega) _⟩
  | readImage grp crd =>
    have hcards := hc.cards_le (grp - 1)
    show ∃ t, execReadImage grp crd s = .next t
    unfold execReadImage
    exact withGroup_defined fun _ _ => withCard_defined fun _ _ =>
      ⟨_, withSlot_present (by omega) (by omega) _⟩

/-! ### The write matrix (10_state.md R40) -/

theorem fsmEdge_of_exec {p : Pins} {s : State} (hs : s.state = .exec) : fsmEdge p s = exec s.command s := by
  simp [fsmEdge, hs, execEdge]

/-- Settles O40: the `S_EXEC` cycle writes what its command writes, every other cycle what the rule of its state
names. -/
theorem writeMatrix : Obligations.WriteMatrix := by
  intro s t h hr
  rcases step_next h with ⟨hr', -⟩ | ⟨-, u, hu, rfl⟩
  · exact absurd hr' (by simp [hr])
  by_cases hs : s.state = .exec
  · rw [fsmEdge_of_exec hs] at hu
    obtain ⟨-, hcmd, hcnt, hptr, hlatch, -⟩ := exec_frame hu
    refine ⟨fun hne => ⟨hs, exec_img_ne hu hne⟩, fun hne => ⟨hs, ?_⟩, ?_⟩
    · rcases exec_topology hu with ⟨hn, hcc⟩ | ⟨count, hi, -⟩
      · exact absurd hne (by simp [hn, hcc])
      · exact ⟨count, hi⟩
    · simp [hs, hcmd, hcnt, hptr, hlatch]
  · rcases fsmEdge_next hu with ⟨hst, hv, rfl⟩ | ⟨-, -, rfl⟩ | ⟨hst, -⟩ | ⟨hst, rfl⟩ | ⟨hst, hlast, rfl⟩ |
      ⟨hst, -, rfl⟩ | ⟨-, -, rfl⟩ | ⟨_, -, -, -, -, -, rfl⟩ | ⟨_, hst, -, -, -, -, rfl⟩ | ⟨_, -, -, -, -, rfl⟩ |
      ⟨-, -, rfl⟩ | ⟨-, -, rfl⟩ | ⟨hst, rfl⟩ | ⟨-, -, rfl⟩ | ⟨hst, -, rfl⟩ | ⟨hst, rfl⟩ | ⟨-, -, rfl⟩ | ⟨-, -, rfl⟩
    · simp [hst, hv]
    · simp
    · exact absurd hst hs
    · simp [hst]
    · simp [hst, hlast]
    · simp [hst]
    · simp
    · simp
    · simp [hst]
    · simp
    · simp
    · simp
    · simp [hst]
    · simp
    · simp [hst]
    · simp [hst]
    · simp
    · simp

/-- The latch register at a step: as it was, all low, or, at the end of `S_LATCH`, high for the registered groups. -/
theorem step_latchQ {s t : State} (h : step s = .next t) :
    t.latchQ = s.latchQ ∨ t.latchQ = List.replicate s.cfg.gMax false ∨
      (s.state = .latch ∧ t.latchQ = s.registeredLatch) := by
  rcases step_next h with ⟨-, rfl⟩ | ⟨hr, u, hu, rfl⟩
  · exact .inr (.inl rfl)
  by_cases hk : u.tick.latchQ = s.latchQ
  · exact .inl hk
  obtain ⟨-, -, -, -, -, hlatch, -⟩ := writeMatrix s _ h hr
  rcases hlatch hk with hs | hs
  · simp only [fsmEdge, hs, unlatchEdge] at hu
    cases hu
    exact .inr (.inl rfl)
  · simp only [fsmEdge, hs, latchEdge] at hu
    cases hu
    exact .inr (.inr ⟨hs, rfl⟩)

/-! ### The configuration (10_state.md R21 to R23) -/

theorem State.length_registeredLatch (s : State) : s.registeredLatch.length = s.cfg.gMax := by
  simp [State.registeredLatch]

/-- `latch_q` is low for unregistered groups once `S_LATCH` has written it (43_commit_fsm.md R125). -/
theorem State.registeredLatch_low (s : State) {g : Nat} (hg : s.groups ≤ g) :
    s.registeredLatch.getD g false = false := by
  rw [State.registeredLatch, List.getD_eq_getElem?_getD, List.getElem?_map]
  by_cases h : g < s.cfg.gMax
  · simp [List.getElem?_range h, hg]
  · simp [Nat.le_of_not_lt h]

theorem step_length_latchQ {s t : State} (hc : s.latchQ.length = s.cfg.gMax) (h : step s = .next t) :
    t.latchQ.length = s.cfg.gMax := by
  rcases step_latchQ h with e | e | ⟨-, e⟩ <;> rw [e]
  · exact hc
  · exact List.length_replicate
  · exact s.length_registeredLatch

/-- A command keeps the registers in the shape of the build. -/
theorem exec_configured {i : Instr} {s t : State} (hc : s.Configured) (h : exec i s = .next t) : t.Configured := by
  obtain ⟨hcfg, -, -, -, hlatch, -⟩ := exec_frame h
  have hmax := hc.max_le
  have hgroups : t.groups ≤ s.cfg.gMax := by
    have := hc.groups_le
    rcases exec_groups hc h with ⟨e, -⟩ | ⟨e, hlt, -⟩ <;> omega
  obtain ⟨hlegal, hcards, hlatches, -, hcounts, hwf, hslots⟩ := hc
  have topo : t.cardCount.length = s.cfg.gMax ∧ ∀ n ∈ t.cardCount, n.toNat ≤ s.cfg.cMax := by
    rcases exec_topology h with ⟨-, e⟩ | ⟨count, -, -, hcount, -, e⟩
    · rw [e]
      exact ⟨hcards, hcounts⟩
    · rw [e, List.length_set]
      refine ⟨hcards, fun n hn => ?_⟩
      rcases List.mem_or_eq_of_mem_set hn with hn | rfl
      · exact hcounts n hn
      · rw [BitVec.toNat_ofNat, Nat.mod_eq_of_lt (by omega)]
        exact hcount
  have slots : ∀ x ∈ t.img, x.1 / 768 < s.cfg.gMax ∧ x.1 / 3 % 256 < s.cfg.cMax := fun x hx => by
    rcases mem_exec_img h hx with hx | ⟨g, hg, c, hcc, e⟩
    · exact hslots x hx
    · omega
  rw [State.Configured, hcfg, hlatch]
  exact ⟨hlegal, topo.1, hlatches, hgroups, topo.2, exec_img_wf hwf h, slots⟩

/-- Settles O59: a reset edge gives the reset shape, a command keeps the shape, and outside `S_EXEC` only the latch
register changes, by registers of `G_MAX` bits. -/
theorem everyStepKeepsTheConfiguration : Obligations.EveryStepKeepsTheConfiguration := by
  intro s t hc h
  rcases step_images h with ⟨_, _, _, rfl⟩ | ⟨-, -, u, hu, rfl⟩ | ⟨-, hcfg, himg, hnum, hcards⟩
  · exact State.configured_resetWith hc.1
  · exact (exec_configured hc hu : u.Configured)
  · obtain ⟨hlegal, hlen, hlatch, hgroups, hcounts, hmem⟩ := hc
    rw [State.Configured, State.groups, hcfg, himg, hnum, hcards]
    exact ⟨hlegal, hlen, step_length_latchQ hlatch h, hgroups, hcounts, hmem⟩

/-! ### The images and the lines (10_state.md R19, R20, R39, 41_group_aggregator.md R99) -/

/-- Settles O56: no command unregisters a group, `S_LATCH` raises the lines of registered groups only, and every other
write of the lines is low. -/
theorem everyStepKeepsUnregisteredLinesLow : Obligations.EveryStepKeepsUnregisteredLinesLow := by
  intro s t hc hlow h g hg hun
  have hcfg := (step_env h).1
  rw [hcfg] at hg
  have hun' : t.latchQ = List.replicate s.cfg.gMax false ∨ s.groups ≤ g := by
    rcases step_images h with ⟨_, _, _, rfl⟩ | ⟨-, -, u, hu, rfl⟩ | ⟨-, -, -, hnum, -⟩
    · exact .inl rfl
    · have : u.groups ≤ g := hun
      rcases exec_groups hc hu with ⟨e, -⟩ | ⟨e, -, -⟩ <;> exact .inr (by omega)
    · exact .inr (by simpa [State.groups, hnum] using hun)
  rcases hun' with e | hun'
  · rw [e, List.getD_replicate _ hg]
  rcases step_latchQ h with e | e | ⟨-, e⟩ <;> rw [e]
  · exact hlow g hg hun'
  · exact List.getD_replicate _ hg
  · exact s.registeredLatch_low hun'

/-- A slot outside the topology after a command was outside it before. -/
theorem exec_unconfigured {i : Instr} {s t : State} (hc : s.Configured) (h : exec i s = .next t) {g c : Nat}
    (ho : t.groups ≤ g ∨ t.cards g ≤ c) : s.groups ≤ g ∨ s.cards g ≤ c := by
  rcases exec_groups hc h with ⟨hg, hcards⟩ | ⟨hg, -, hcards⟩
  · rwa [hg, hcards] at ho
  · by_cases hn : g = s.groups
    · exact .inl hn.ge
    · rw [hcards g hn] at ho
      omega

theorem exec_unconfiguredZero {i : Instr} {s t : State} (hc : s.Configured) (hz : s.UnconfiguredZero)
    (h : exec i s = .next t) : t.UnconfiguredZero := by
  intro g hg c hcc ho
  rw [(exec_frame h).1] at hg hcc
  rcases exec_image hc h hg hcc with e | e | ⟨p, n, hgroups, hcards, hgl, hcl, -⟩
  · rw [e]
    exact hz g hg c hcc (exec_unconfigured hc h ho)
  · exact e
  · rw [hgroups, hcards] at ho
    omega

theorem exec_atMostOneSelected {i : Instr} {s t : State} (hc : s.Configured) (ha : s.AtMostOneSelected)
    (h : exec i s = .next t) : t.AtMostOneSelected := by
  intro g hg c hcc c' hcc' hne hne'
  rw [(exec_frame h).1] at hg hcc hcc'
  by_contra hcard
  rcases exec_image hc h hg hcc with e | e | ⟨_, _, -, -, -, -, -, others⟩
  · rcases exec_image hc h hg hcc' with e' | e' | ⟨_, _, -, -, -, -, -, others⟩
    · exact hcard (ha g hg c hcc c' hcc' (e ▸ hne) (e' ▸ hne'))
    · exact hne' e'
    · exact hne (others c hcc hcard)
  · exact hne e
  · exact hne' (others c' hcc' (Ne.symm hcard))

theorem exec_neverBitsZero {i : Instr} {s t : State} (hc : s.Configured) (hn : s.NeverBitsZero)
    (h : exec i s = .next t) : t.NeverBitsZero := by
  intro g hg c hcc
  rw [(exec_frame h).1] at hg hcc
  rcases exec_image hc h hg hcc with e | e | ⟨p, n, -, -, -, -, e, -⟩ <;> rw [e]
  · exact hn g hg c hcc
  · exact BitVec.zero_and
  · exact encodeChannel_never p n

/-- What is kept by a command, holds after reset, and is about the images and the topology alone, is kept by every
step. -/
theorem step_keeps_of_images {I : State → Prop} {s t : State}
    (reset : ∀ pins cycle trace, I { State.resetWith s.cfg with pins := pins, cycle := cycle, trace := trace })
    (exec : ∀ u, exec s.command s = .next u → I u.tick)
    (frame : t.cfg = s.cfg → t.groups = s.groups → t.cards = s.cards → t.image = s.image → I t)
    (h : step s = .next t) : I t := by
  rcases step_images h with ⟨_, _, _, rfl⟩ | ⟨-, -, u, hu, rfl⟩ | ⟨-, hcfg, himg, hnum, hcount⟩
  · exact reset _ _ _
  · exact exec u hu
  · obtain ⟨-, -, -, hgroups, hcards, himage, -⟩ := State.payload_congr himg hnum hcount
    exact frame hcfg hgroups hcards himage

/-- Settles O55: a command zeroes or selects slots inside the topology only, and ADD_GROUP the slots it takes in. -/
theorem everyStepKeepsUnconfiguredSlotsZero : Obligations.EveryStepKeepsUnconfiguredSlotsZero := by
  intro s t hc hz
  refine step_keeps_of_images (fun _ _ _ => State.unconfiguredZero_resetWith s.cfg)
    (fun u hu => show u.UnconfiguredZero from exec_unconfiguredZero hc hz hu) fun hcfg hgroups hcards himage => ?_
  rw [State.UnconfiguredZero, hcfg, hgroups, hcards, himage]
  exact hz

/-- Settles O57: every image a command writes is 0 or the encoder's. -/
theorem everyStepKeepsNeverBitsZero : Obligations.EveryStepKeepsNeverBitsZero := by
  intro s t hc hn
  refine step_keeps_of_images (fun _ _ _ => State.neverBitsZero_resetWith s.cfg)
    (fun u hu => show u.NeverBitsZero from exec_neverBitsZero hc hn hu) fun hcfg _ _ himage => ?_
  rw [State.NeverBitsZero, hcfg, himage]
  exact hn

theorem step_atMostOneSelected {s t : State} (hc : s.Configured) (ha : s.AtMostOneSelected) (h : step s = .next t) :
    t.AtMostOneSelected := by
  refine step_keeps_of_images (fun _ _ _ => State.atMostOneSelected_resetWith s.cfg)
    (fun u hu => show u.AtMostOneSelected from exec_atMostOneSelected hc ha hu) (fun hcfg _ _ himage => ?_) h
  rw [State.AtMostOneSelected, hcfg, himage]
  exact ha

/-! ### The sequencer (60_exceptions.md R157) -/

/-- A named state that uses neither counter asks only that they stay as they were. -/
theorem State.SequencerOk.of_unused_counters {s u : State} (hq : s.SequencerOk) (hcfg : u.cfg = s.cfg)
    (hcnt : u.cnt = s.cnt) (hptr : u.ptr = s.ptr) (hnamed : ∀ k, u.state ≠ .unused k)
    (hstate : u.state ≠ .waitLow ∧ u.state ≠ .waitHigh ∧ u.state ≠ .xfer) : u.SequencerOk := by
  obtain ⟨-, hc, hp, -⟩ := hq
  obtain ⟨hlow, hhigh, hxfer⟩ := hstate
  rw [State.SequencerOk, hcfg, hcnt, hptr]
  exact ⟨hnamed, hc, hp, fun h => absurd h hlow, fun h => absurd h hhigh, fun h => absurd h hxfer⟩

/-- Counting a delay down, but not to 0, stays in range. -/
theorem State.SequencerOk.count_down {s : State} (hq : s.SequencerOk) (hcnt : s.cnt ≠ 1) (hpos : 1 ≤ s.cnt) :
    ({ s with cnt := decrement s.cfg.cntW s.cnt } : State).SequencerOk := by
  obtain ⟨hnamed, hc, hp, hlow, hhigh, hxfer⟩ := hq
  rw [decrement_eq hpos hc]
  refine ⟨hnamed, ?_, hp, fun hs => ?_, fun hs => ?_, hxfer⟩
  · show s.cnt - 1 < 2 ^ s.cfg.cntW
    omega
  · show 1 ≤ s.cnt - 1 ∧ s.cnt - 1 ≤ s.cfg.dLowCycles
    have := hlow hs
    omega
  · show 1 ≤ s.cnt - 1 ∧ s.cnt - 1 ≤ s.cfg.dHighCycles
    have := hhigh hs
    omega

/-- A cycle of the FSM keeps the counters in range: the delays fit their counter, a delay stops at 1, and the payload
fits its pointer. -/
theorem fsmEdge_sequencerOk {p : Pins} {s u : State} (hc : s.Configured) (hq : s.SequencerOk)
    (h : fsmEdge p s = .next u) : u.SequencerOk := by
  have hlen := hc.len_lt
  obtain ⟨⟨hlow1, hlow2, -⟩, hhigh1, hhigh2, -⟩ := legal_delays hc.1
  obtain ⟨hlowt, hhight⟩ := legal_truncate hc.1
  obtain ⟨hnamed, hcnt, hptr, hlow, hhigh, hxfer⟩ := id hq
  rcases fsmEdge_next h with ⟨-, -, rfl⟩ | ⟨-, -, rfl⟩ | ⟨-, he⟩ | ⟨-, rfl⟩ | ⟨-, -, rfl⟩ | ⟨hs, h1, rfl⟩ |
    ⟨-, -, rfl⟩ | ⟨_, -, -, -, -, -, rfl⟩ | ⟨_, hs, hl, -, -, hlast, rfl⟩ | ⟨_, -, -, -, -, rfl⟩ | ⟨-, -, rfl⟩ |
    ⟨-, -, rfl⟩ | ⟨-, rfl⟩ | ⟨-, -, rfl⟩ | ⟨hs, h1, rfl⟩ | ⟨-, rfl⟩ | ⟨-, -, rfl⟩ | ⟨-, -, rfl⟩
  · exact hq.of_unused_counters rfl rfl rfl (by simp) (by simp)
  · exact hq
  · obtain ⟨hcfg, -, hcnt', hptr', -⟩ := exec_frame he
    rcases exec_state he with e | e <;>
      exact hq.of_unused_counters hcfg hcnt' hptr' (by simp [e]) (by simp [e])
  · rw [hlowt]
    exact ⟨by simp, hlow2, hptr, fun _ => ⟨hlow1, le_rfl⟩, by simp, by simp⟩
  · refine ⟨by simp, hcnt, Nat.two_pow_pos _, by simp, by simp, fun _ => ?_⟩
    show 0 < s.len ∨ s.len = 0 ∧ 0 = 0
    omega
  · exact hq.count_down h1 (hlow hs).1
  · exact hq.of_unused_counters rfl rfl rfl (by simp) (by simp)
  · exact hq.of_unused_counters rfl rfl rfl (by simp) (by simp)
  · have hnext : s.ptr + 1 < s.len := by
      have := hxfer hs
      omega
    rw [increment_eq (by omega)]
    exact ⟨hnamed, hcnt, hnext.trans hlen, hlow, hhigh, fun _ => .inl hnext⟩
  · exact hq
  · exact hq.of_unused_counters rfl rfl rfl (by simp) (by simp)
  · exact hq
  · rw [hhight]
    exact ⟨by simp, hhigh2, hptr, by simp, fun _ => ⟨hhigh1, le_rfl⟩, by simp⟩
  · exact hq.of_unused_counters rfl rfl rfl (by simp) (by simp)
  · exact hq.count_down h1 (hhigh hs).1
  · exact hq.of_unused_counters rfl rfl rfl (by simp) (by simp)
  · exact hq.of_unused_counters rfl rfl rfl (by simp) (by simp)
  · exact hq

theorem step_sequencerOk {s t : State} (hc : s.Configured) (hq : s.SequencerOk) (h : step s = .next t) :
    t.SequencerOk := by
  rcases step_next h with ⟨-, rfl⟩ | ⟨-, u, hu, rfl⟩
  · exact State.sequencerOk_resetWith s.cfg
  · exact (fsmEdge_sequencerOk hc hq hu : u.SequencerOk)

/-! ### The latch lines in a commit (43_commit_fsm.md R142) -/

/-- `S_UNLATCH` lowers the lines, `S_LATCH` raises those of the registered groups, and the states between keep them. -/
theorem fsmEdge_linesOk {p : Pins} {s u : State} (hl : s.LinesOk) (h : fsmEdge p s = .next u) : u.LinesOk := by
  obtain ⟨low, high⟩ := id hl
  rcases fsmEdge_next h with ⟨-, -, rfl⟩ | ⟨-, -, rfl⟩ | ⟨-, he⟩ | ⟨-, rfl⟩ | ⟨hs, -, rfl⟩ | ⟨-, -, rfl⟩ |
    ⟨hs, -, rfl⟩ | ⟨_, hs, -, -, -, -, rfl⟩ | ⟨_, -, -, -, -, -, rfl⟩ | ⟨_, -, -, -, -, rfl⟩ | ⟨hs, -, rfl⟩ |
    ⟨-, -, rfl⟩ | ⟨-, rfl⟩ | ⟨hs, -, rfl⟩ | ⟨-, -, rfl⟩ | ⟨-, rfl⟩ | ⟨-, -, rfl⟩ | ⟨-, -, rfl⟩
  · exact ⟨by simp, by simp⟩
  · exact hl
  · rcases exec_state he with e | e <;> exact ⟨by simp [e], by simp [e]⟩
  · exact ⟨fun _ => rfl, by simp⟩
  · exact ⟨fun _ => low (by simp [hs]), by simp⟩
  · exact hl
  · exact ⟨fun _ => low (by simp [hs]), by simp⟩
  · exact ⟨fun _ => low (by simp [hs]), by simp⟩
  · exact hl
  · exact hl
  · exact ⟨fun _ => low (by simp [hs]), by simp⟩
  · exact hl
  · exact ⟨by simp, fun _ => rfl⟩
  · exact ⟨by simp, fun _ => high (by simp [hs])⟩
  · exact hl
  · exact ⟨by simp, by simp⟩
  · exact ⟨by simp, by simp⟩
  · exact hl

theorem step_linesOk {s t : State} (hl : s.LinesOk) (h : step s = .next t) : t.LinesOk := by
  rcases step_next h with ⟨-, rfl⟩ | ⟨-, u, hu, rfl⟩
  · exact State.linesOk_resetWith s.cfg
  · exact (fsmEdge_linesOk hl hu : u.LinesOk)

/-! ### The block never stops (60_exceptions.md R157) -/

/-- While the pointer is in the payload, `S_XFER` has a byte to offer. -/
theorem xferEdge_defined (p : Pins) {s : State} (hp : s.ptr < s.len ∨ s.len = 0) : ∃ u, xferEdge p s = .next u := by
  unfold xferEdge
  split
  next => exact ⟨_, rfl⟩
  next hl =>
    obtain ⟨b, hb, -⟩ := s.memRead_of_lt (i := s.ptr) (by omega)
    simp only [hb]
    split
    · split <;> exact ⟨_, rfl⟩
    · exact ⟨_, rfl⟩

/-- A configured block in a named state, its pointer in the payload, has a next state whatever the inputs. -/
theorem fsmEdge_defined (p : Pins) {s : State} (hc : s.Configured) (hq : s.SequencerOk) :
    ∃ u, fsmEdge p s = .next u := by
  obtain ⟨hnamed, -, -, -, -, hxfer⟩ := hq
  cases hs : s.state with
  | idle => simp only [fsmEdge, hs, idleEdge]; split <;> exact ⟨_, rfl⟩
  | exec => rw [fsmEdge_of_exec hs]; exact exec_defined hc s.command
  | unlatch => simp only [fsmEdge, hs]; exact ⟨_, rfl⟩
  | waitLow => simp only [fsmEdge, hs, waitLowEdge]; split <;> exact ⟨_, rfl⟩
  | xfer => simp only [fsmEdge, hs]; exact xferEdge_defined p ((hxfer hs).imp_right And.left)
  | drain => simp only [fsmEdge, hs, drainEdge]; split <;> exact ⟨_, rfl⟩
  | latch => simp only [fsmEdge, hs]; exact ⟨_, rfl⟩
  | waitHigh => simp only [fsmEdge, hs, waitHighEdge]; split <;> exact ⟨_, rfl⟩
  | verify => simp only [fsmEdge, hs]; exact ⟨_, rfl⟩
  | resp => simp only [fsmEdge, hs, respEdge]; split <;> exact ⟨_, rfl⟩
  | unused k => exact absurd hs (hnamed k)

theorem step_defined {s : State} (hc : s.Configured) (hq : s.SequencerOk) : ∃ t, step s = .next t := by
  cases hr : s.nextPins.rst with
  | true => exact ⟨_, step_of_reset hr⟩
  | false =>
    obtain ⟨u, hu⟩ := fsmEdge_defined s.nextPins hc hq
    exact ⟨u.tick, by rw [step_of_noReset hr, hu]; rfl⟩

/-- Settles O51: the step is defined, and it keeps each part of the invariant. -/
theorem everyStepKeepsTheBlockInvariant : Obligations.EveryStepKeepsTheBlockInvariant := by
  rintro s ⟨hc, hzero, hone, hnever, hlow, hseq, hlines⟩
  obtain ⟨t, h⟩ := step_defined hc hseq
  exact ⟨t, h, everyStepKeepsTheConfiguration s t hc h, everyStepKeepsUnconfiguredSlotsZero s t hc hzero h,
    step_atMostOneSelected hc hone h, everyStepKeepsNeverBitsZero s t hc hnever h,
    everyStepKeepsUnregisteredLinesLow s t hc hlow h, step_sequencerOk hc hseq h, step_linesOk hlines h⟩

end Sys2Proof.Machine
end

section
/-! SUPPORT. The memory family: the bytes of the payload and their owners, the canonical form of the image file, and the
independence of the block from the serial bit order (20_memory.md). -/

namespace Sys2Proof.Machine

/-! ### The payload (20_memory.md R43, R44, R45, R54) -/

/-- Byte `k` of `IMG[g][c]` stands at payload offset `BASE(g) + 3c + k` (20_memory.md R44). -/
theorem State.getElem?_payload (s : State) {g c k : Nat} (hg : g < s.groups) (hc : c < s.cards g) (hk : k < 3) :
    s.payload[s.base g + 3 * c + k]? = some (imageByte (s.image g c) k) := by
  have hnext := s.base_succ g
  have owner := s.getElem?_payload_of_owner hg (i := s.base g + 3 * c + k) (by omega) (by omega)
  have hoff : s.base g + 3 * c + k - s.base g = 3 * c + k := by omega
  rwa [hoff, show (3 * c + k) / 3 = c by omega, show (3 * c + k) % 3 = k by omega] at owner

/-- Settles O25, from the length of each group's payload and the place of each card's bytes in it. -/
theorem payloadConcatenatesTheImages : Obligations.PayloadConcatenatesTheImages :=
  fun s => ⟨s.length_payload, rfl, fun _ _ => rfl, fun g hg =>
    ⟨s.length_groupPayload g, fun _ hc _ hk => s.getElem?_payload hg hc hk⟩⟩

/-- An offset has one owner at most (20_memory.md R45). -/
theorem State.owner_unique (s : State) {i g h : Nat} (hg : s.base g ≤ i) (hg' : i < s.base (g + 1))
    (hh : s.base h ≤ i) (hh' : i < s.base (h + 1)) : h = g := by
  rcases Nat.lt_trichotomy h g with hlt | rfl | hgt
  · have := s.base_mono (show h + 1 ≤ g from hlt)
    omega
  · rfl
  · have := s.base_mono (show g + 1 ≤ h from hgt)
    omega

/-- Only an offset below `LEN` has an owner among the registered groups. -/
theorem State.lt_len_of_owner (s : State) {i g : Nat} (hg : g < s.groups) (h : i < s.base (g + 1)) : i < s.len :=
  h.trans_le (s.base_mono hg)

/-- Settles O26: `MemRead` finds an owner exactly below `LEN`, the bases rise, so the owner is unique, and the payload's
byte is the owner's. -/
theorem memReadIsThePayloadByte : Obligations.MemReadIsThePayloadByte := by
  intro s i
  rcases s.memRead_cases i with ⟨g, hg, hlo, hhi, hread⟩ | ⟨hlen, hread⟩
  · have hi := s.lt_len_of_owner hg hhi
    have hbyte : s.payload[i]? = s.memRead i := (s.getElem?_payload_of_owner hg hlo hhi).trans hread.symm
    exact ⟨fun _ => ⟨g, ⟨hg, hlo, hhi⟩, fun _ _ => s.owner_unique hlo hhi, hread, hbyte⟩,
      fun hle => absurd hi (by omega)⟩
  · exact ⟨fun hi => absurd hi (by omega), fun _ => hread⟩

/-- Settles O27: SET_CHANNEL keeps the topology, so the card keeps its payload offset, and its image is the
encoder's. -/
theorem channelImageAtItsPayloadOffset : Obligations.ChannelImageAtItsPayloadOffset := by
  intro s grp crd p n hc h1 h2 h3 h4
  refine ⟨_, exec_setChannel_valid p n hc h1 h2 h3 h4, fun k hk => ?_⟩
  set t : State := ({ s with img := groupSet s.cfg.cMax s.img (grp - 1) (crd - 1) p n } : State).beginCommit
    (kindData (encodeChannel p n).2)
  have hcards := hc.cards_le (grp - 1)
  have hmax := hc.max_le
  have himage : t.image (grp - 1) (crd - 1) = (encodeChannel p n).1 :=
    (loadImage_groupSet hc.img_wf (by omega) (by omega) p n (by omega)).trans (if_pos ⟨rfl, rfl⟩)
  have hgroup : grp - 1 < t.groups := show grp - 1 < s.groups by omega
  have hcard : crd - 1 < t.cards (grp - 1) := show crd - 1 < s.cards (grp - 1) by omega
  have hbyte := t.getElem?_payload hgroup hcard hk
  rwa [himage] at hbyte

/-! ### The canonical form (20_memory.md R41) -/

/-- Settles O58: the reset file is canonical, a command writes by canonical stores, and no other cycle writes. -/
theorem everyStepKeepsMemoryCanonical : Obligations.EveryStepKeepsMemoryCanonical := by
  intro s t hw h
  rcases step_images h with ⟨_, _, _, rfl⟩ | ⟨-, -, u, hu, rfl⟩ | ⟨-, -, himg, -⟩
  · exact Memory.wf_nil
  · exact (exec_img_wf hw hu : u.img.wf)
  · rwa [himg]

/-! ### The serial bit order (20_memory.md R48)

Changing the bit order commutes with every part of the step. -/

/-- The same block built for the serial bit order `o`. -/
def State.withBitOrder (o : BitOrder) (s : State) : State :=
  { s with cfg := { s.cfg with wireBitOrder := o } }

/-- A change of the next state of an outcome; `afterEdge` is the one by `State.tick`. -/
def mapNext (f : State → State) : Host.Outcome State Fault Refusal → Host.Outcome State Fault Refusal
  | .next s => .next (f s)
  | .fault r => .fault r
  | .refused r => .refused r

/-- A choice commutes with a change of the next state where both of its branches do. -/
theorem ite_eq_mapNext {f : State → State} {P : Prop} [Decidable P] {a b a' b' : Host.Outcome State Fault Refusal}
    (ha : a' = mapNext f a) (hb : b' = mapNext f b) :
    (if P then a' else b') = mapNext f (if P then a else b) := by
  rw [ha, hb]
  exact (apply_ite (mapNext f) P a b).symm

/-- No output port reads a parameter. -/
theorem outputs_withBitOrder (o : BitOrder) (s : State) : outputs (s.withBitOrder o) = outputs s := rfl

/-- Each check of a command is such a choice, and so is the presence of its slot; the images it writes are those of the
same slots. -/
theorem exec_withBitOrder (o : BitOrder) (i : Instr) (s : State) :
    exec i (s.withBitOrder o) = mapNext (State.withBitOrder o) (exec i s) := by
  cases i with
  | reserved000 => rfl
  | reserved110 => rfl
  | reserved111 => rfl
  | clearAll => rfl
  | addGroup count => exact ite_eq_mapNext rfl (ite_eq_mapNext rfl rfl)
  | clearGroup grp => exact ite_eq_mapNext (ite_eq_mapNext rfl rfl) rfl
  | setChannel grp crd p n => exact ite_eq_mapNext (ite_eq_mapNext (ite_eq_mapNext rfl rfl) rfl) rfl
  | readImage grp crd => exact ite_eq_mapNext (ite_eq_mapNext (ite_eq_mapNext rfl rfl) rfl) rfl

theorem xferEdge_withBitOrder (o : BitOrder) (p : Pins) (s : State) :
    xferEdge p (s.withBitOrder o) = mapNext (State.withBitOrder o) (xferEdge p s) := by
  obtain ⟨-, hlen, hread, -⟩ := State.payload_congr (s := s) (t := s.withBitOrder o) rfl rfl rfl
  have hptr : (s.withBitOrder o).ptr = s.ptr := rfl
  rw [xferEdge, xferEdge, hlen, hread, hptr]
  refine ite_eq_mapNext rfl ?_
  cases s.memRead s.ptr with
  | none => rfl
  | some b => exact ite_eq_mapNext (ite_eq_mapNext rfl rfl) rfl

theorem fsmEdge_withBitOrder (o : BitOrder) (p : Pins) (s : State) :
    fsmEdge p (s.withBitOrder o) = mapNext (State.withBitOrder o) (fsmEdge p s) := by
  have hstate : (s.withBitOrder o).state = s.state := rfl
  rw [fsmEdge, fsmEdge, hstate]
  cases s.state with
  | idle => exact ite_eq_mapNext rfl rfl
  | exec => exact exec_withBitOrder o s.command s
  | unlatch => rfl
  | waitLow => exact ite_eq_mapNext rfl rfl
  | xfer => exact xferEdge_withBitOrder o p s
  | drain => exact ite_eq_mapNext rfl rfl
  | latch => rfl
  | waitHigh => exact ite_eq_mapNext rfl rfl
  | verify => rfl
  | resp => exact ite_eq_mapNext rfl rfl
  | unused k => rfl

theorem edge_withBitOrder (o : BitOrder) (p : Pins) (s : State) :
    edge p (s.withBitOrder o) = mapNext (State.withBitOrder o) (edge p s) :=
  ite_eq_mapNext rfl (fsmEdge_withBitOrder o p s)

theorem afterEdge_mapNext_withBitOrder (o : BitOrder) (out : Host.Outcome State Fault Refusal) :
    afterEdge (mapNext (State.withBitOrder o) out) = mapNext (State.withBitOrder o) (afterEdge out) := by
  cases out <;> rfl

/-- Stepping the block built for another bit order is stepping the block and then changing the bit order. -/
theorem step_withBitOrder (o : BitOrder) (s : State) :
    step (s.withBitOrder o) = mapNext (State.withBitOrder o) (step s) :=
  calc step (s.withBitOrder o)
    _ = afterEdge (edge s.nextPins (s.withBitOrder o)) := rfl
    _ = afterEdge (mapNext (State.withBitOrder o) (edge s.nextPins s)) := by rw [edge_withBitOrder]
    _ = mapNext (State.withBitOrder o) (step s) := afterEdge_mapNext_withBitOrder o _

/-- Settles O43: a step keeps the parameters, and changing the bit order commutes with it and is seen by no port. -/
theorem wireBitOrderIsNotRead : Obligations.WireBitOrderIsNotRead := by
  intro s o
  have hstep : ∀ {out}, step s = out → step (s.withBitOrder o) = mapNext (State.withBitOrder o) out :=
    fun h => h ▸ step_withBitOrder o s
  exact ⟨outputs_withBitOrder o s, fun _ ht => ⟨(step_env ht).1, hstep ht⟩, fun _ => hstep, fun _ => hstep⟩

end Sys2Proof.Machine
end

section
/-! SUPPORT. The encoding family, the command word: the decoder by opcode, a field placed in a word and read from it, and
the two round trips (30_encoding.md sections 1, 4 and 5). -/

namespace Sys2Proof

/-! ### The fields of a word (30_encoding.md R62) -/

theorem toNat_opField (w : Word) : (opField w).toNat = w.toNat / 2 ^ 29 := by
  have := w.isLt
  rw [opField, toNat_extractLsb', Nat.mod_eq_of_lt (by omega)]

/-- The opcode field from the word's value. -/
theorem opField_eq {w : Word} {k : Nat} (h : w.toNat / 2 ^ 29 = k) : opField w = BitVec.ofNat 3 k := by
  rw [← h, ← toNat_opField, BitVec.ofNat_toNat, BitVec.setWidth_eq]

theorem opField_cases (w : Word) : opField w = 0 ∨ opField w = 1 ∨ opField w = 2 ∨ opField w = 3 ∨ opField w = 4 ∨
    opField w = 5 ∨ opField w = 6 ∨ opField w = 7 := by
  generalize opField w = op
  revert op
  decide

theorem grpField_lt (w : Word) : grpField w < 256 := (w.extractLsb' 21 8).isLt

theorem crdField_lt (w : Word) : crdField w < 256 := (w.extractLsb' 13 8).isLt

theorem countField_lt (w : Word) : countField w < 256 := (w.extractLsb' 13 8).isLt

theorem posField_lt (w : Word) : posField w < 32 := (w.extractLsb' 8 5).isLt

theorem negField_lt (w : Word) : negField w < 32 := (w.extractLsb' 3 5).isLt

/-! ### The decoder by opcode (30_encoding.md R63) -/

theorem decode_of_op_zero {w : Word} (h : opField w = 0) : decode w = .reserved000 := by simp [decode, h]

theorem decode_of_op_one {w : Word} (h : opField w = 1) : decode w = .addGroup (countField w) := by simp [decode, h]

theorem decode_of_op_two {w : Word} (h : opField w = 2) : decode w = .clearAll := by simp [decode, h]

theorem decode_of_op_three {w : Word} (h : opField w = 3) : decode w = .clearGroup (grpField w) := by simp [decode, h]

theorem decode_of_op_four {w : Word} (h : opField w = 4) :
    decode w = .setChannel (grpField w) (crdField w) (posField w) (negField w) := by simp [decode, h]

theorem decode_of_op_five {w : Word} (h : opField w = 5) : decode w = .readImage (grpField w) (crdField w) := by
  simp [decode, h]

theorem decode_of_op_six {w : Word} (h : opField w = 6) : decode w = .reserved110 := by simp [decode, h]

theorem decode_of_op_seven {w : Word} (h : opField w = 7) : decode w = .reserved111 := by simp [decode, h]

/-- Settles O3: a field is a quotient and a remainder of the word's value, and the opcode selects the arm of the
decoder. -/
theorem fieldsAreTheirBits : Obligations.FieldsAreTheirBits := by
  intro w
  have hgrp : grpField w = w.toNat / 2 ^ 21 % 256 := toNat_extractLsb' w 21 8
  have hcrd : crdField w = w.toNat / 2 ^ 13 % 256 := toNat_extractLsb' w 13 8
  have hcount : countField w = w.toNat / 2 ^ 13 % 256 := toNat_extractLsb' w 13 8
  have hpos : posField w = w.toNat / 2 ^ 8 % 32 := toNat_extractLsb' w 8 5
  have hneg : negField w = w.toNat / 2 ^ 3 % 32 := toNat_extractLsb' w 3 5
  refine ⟨⟨toNat_opField w, hgrp, hcrd, hcount, hpos, hneg⟩, ?_⟩
  rw [← hgrp, ← hcrd, ← hpos, ← hneg]
  exact ⟨fun h => decode_of_op_zero (opField_eq h), fun h => decode_of_op_one (opField_eq h),
    fun h => decode_of_op_two (opField_eq h), fun h => decode_of_op_three (opField_eq h),
    fun h => decode_of_op_four (opField_eq h), fun h => decode_of_op_five (opField_eq h),
    fun h => decode_of_op_six (opField_eq h), fun h => decode_of_op_seven (opField_eq h)⟩

/-! ### Decoding an encoded command -/

/-- A placed field reads back. -/
theorem extractLsb'_fieldAt_same {width lo : Nat} (v : Nat) (h : lo + width ≤ 32) :
    (fieldAt width lo v).extractLsb' lo width = BitVec.ofNat width v := by
  refine BitVec.eq_of_getLsbD_eq fun k hk => ?_
  rw [BitVec.getLsbD_extractLsb', getLsbD_fieldAt _ _ _ _ (by omega), BitVec.getLsbD_ofNat]
  simp [hk]

/-- A placed field reads as 0 where it does not reach. -/
theorem extractLsb'_fieldAt_disjoint {width lo width' lo' : Nat} (v : Nat) (h' : lo' + width' ≤ 32)
    (h : lo + width ≤ lo' ∨ lo' + width' ≤ lo) : (fieldAt width lo v).extractLsb' lo' width' = 0 := by
  refine BitVec.eq_of_getLsbD_eq fun k hk => ?_
  have houtside : ¬ (lo ≤ lo' + k ∧ lo' + k < lo + width) := by omega
  rw [BitVec.getLsbD_extractLsb', getLsbD_fieldAt _ _ _ _ (by omega)]
  simp [houtside]

theorem wf_setChannel_iff {grp crd pos neg : Nat} :
    (Instr.setChannel grp crd pos neg).wf = true ↔ grp < 256 ∧ crd < 256 ∧ pos < 32 ∧ neg < 32 := by
  simp [Instr.wf, fitsByteField, fitsPinField, and_assoc]

theorem wf_readImage_iff {grp crd : Nat} : (Instr.readImage grp crd).wf = true ↔ grp < 256 ∧ crd < 256 := by
  simp [Instr.wf, fitsByteField]

theorem wf_addGroup_iff {count : Nat} : (Instr.addGroup count).wf = true ↔ count < 256 := by
  simp [Instr.wf, fitsByteField]

theorem wf_clearGroup_iff {grp : Nat} : (Instr.clearGroup grp).wf = true ↔ grp < 256 := by
  simp [Instr.wf, fitsByteField]

/-- The fields of an encoded command do not overlap, so each operand reads back where it fits its field. -/
theorem decode_encode {i : Instr} (h : i.wf = true) : decode (encode i) = i := by
  have hop := opField_encode i
  cases i with
  | reserved000 => exact decode_of_op_zero hop
  | clearAll => exact decode_of_op_two hop
  | reserved110 => exact decode_of_op_six hop
  | reserved111 => exact decode_of_op_seven hop
  | addGroup count =>
    have hcount := wf_addGroup_iff.1 h
    rw [decode_of_op_one hop]
    simp (disch := omega) [countField, encode, BitVec.extractLsb'_or, extractLsb'_fieldAt_same,
      extractLsb'_fieldAt_disjoint, Nat.mod_eq_of_lt]
  | clearGroup grp =>
    have hgrp := wf_clearGroup_iff.1 h
    rw [decode_of_op_three hop]
    simp (disch := omega) [grpField, encode, BitVec.extractLsb'_or, extractLsb'_fieldAt_same,
      extractLsb'_fieldAt_disjoint, Nat.mod_eq_of_lt]
  | setChannel grp crd pos neg =>
    obtain ⟨hgrp, hcrd, hpos, hneg⟩ := wf_setChannel_iff.1 h
    rw [decode_of_op_four hop]
    simp (disch := omega) [grpField, crdField, posField, negField, encode, BitVec.extractLsb'_or,
      extractLsb'_fieldAt_same, extractLsb'_fieldAt_disjoint, Nat.mod_eq_of_lt]
  | readImage grp crd =>
    obtain ⟨hgrp, hcrd⟩ := wf_readImage_iff.1 h
    rw [decode_of_op_five hop]
    simp (disch := omega) [grpField, crdField, encode, BitVec.extractLsb'_or, extractLsb'_fieldAt_same,
      extractLsb'_fieldAt_disjoint, Nat.mod_eq_of_lt]

/-- Settles O2. -/
theorem decodeEncodeRoundTrip : Obligations.DecodeEncodeRoundTrip := fun _ h => decode_encode h

/-! ### Encoding a decoded word -/

/-- Placing a field of a word where it stood masks the word to the field. -/
theorem fieldAt_extractLsb' (w : Word) (width lo : Nat) :
    fieldAt width lo (w.extractLsb' lo width).toNat = w &&& fieldAt width lo (2 ^ width - 1) := by
  refine BitVec.eq_of_getLsbD_eq fun k hk => ?_
  rw [BitVec.getLsbD_and, getLsbD_fieldAt _ _ _ _ hk, getLsbD_fieldAt _ _ _ _ hk, BitVec.testBit_toNat,
    BitVec.getLsbD_extractLsb', Nat.testBit_two_pow_sub_one]
  by_cases hin : lo ≤ k ∧ k < lo + width
  · simp [hin, show k - lo < width by omega, show lo + (k - lo) = k by omega]
  · simp [hin]

theorem fieldAt_opField (w : Word) : fieldAt 3 29 (opField w).toNat = w &&& 0xE0000000 := fieldAt_extractLsb' w 3 29

theorem fieldAt_grpField (w : Word) : fieldAt 8 21 (grpField w) = w &&& 0x1FE00000 := fieldAt_extractLsb' w 8 21

theorem fieldAt_crdField (w : Word) : fieldAt 8 13 (crdField w) = w &&& 0x001FE000 := fieldAt_extractLsb' w 8 13

theorem fieldAt_countField (w : Word) : fieldAt 8 13 (countField w) = w &&& 0x001FE000 := fieldAt_extractLsb' w 8 13

theorem fieldAt_posField (w : Word) : fieldAt 5 8 (posField w) = w &&& 0x00001F00 := fieldAt_extractLsb' w 5 8

theorem fieldAt_negField (w : Word) : fieldAt 5 3 (negField w) = w &&& 0x000000F8 := fieldAt_extractLsb' w 5 3

theorem wf_decode (w : Word) : (decode w).wf = true := by
  rcases opField_cases w with h | h | h | h | h | h | h | h
  · rw [decode_of_op_zero h]; rfl
  · rw [decode_of_op_one h]; exact wf_addGroup_iff.2 (countField_lt w)
  · rw [decode_of_op_two h]; rfl
  · rw [decode_of_op_three h]; exact wf_clearGroup_iff.2 (grpField_lt w)
  · rw [decode_of_op_four h]
    exact wf_setChannel_iff.2 ⟨grpField_lt w, crdField_lt w, posField_lt w, negField_lt w⟩
  · rw [decode_of_op_five h]; exact wf_readImage_iff.2 ⟨grpField_lt w, crdField_lt w⟩
  · rw [decode_of_op_six h]; rfl
  · rw [decode_of_op_seven h]; rfl

/-- The bits a command of opcode `op` uses, the opcode's among them: the complement of the ignored bits of
30_encoding.md R64. -/
def usedBits (op : Nat) : Word :=
  match op with
  | 1 => 0xE01FE000
  | 3 => 0xFFE00000
  | 4 => 0xFFFFFFF8
  | 5 => 0xFFFFE000
  | _ => 0xE0000000

/-- An arm of the decoder is selected by the opcode of its command. -/
theorem opcode_decode (w : Word) : (decode w).opcode = (opField w).toNat := by
  unfold decode
  split
  all_goals next h => exact (congrArg Fin.val h).symm

/-- Each used field is put back where it stood, and the masks of the fields make up that of the command. -/
theorem encode_decode (w : Word) : encode (decode w) = w &&& usedBits (w.toNat / 2 ^ 29) := by
  have hop : fieldAt 3 29 (decode w).opcode = w &&& 0xE0000000 := by rw [opcode_decode, fieldAt_opField]
  rw [← toNat_opField]
  rcases opField_cases w with h | h | h | h | h | h | h | h <;> rw [h]
  · rw [decode_of_op_zero h] at hop ⊢
    exact BitVec.or_zero.trans hop
  · rw [decode_of_op_one h] at hop ⊢
    rw [encode, hop, fieldAt_countField, ← BitVec.and_or_distrib_left]
    rfl
  · rw [decode_of_op_two h] at hop ⊢
    exact BitVec.or_zero.trans hop
  · rw [decode_of_op_three h] at hop ⊢
    rw [encode, hop, fieldAt_grpField, ← BitVec.and_or_distrib_left]
    rfl
  · rw [decode_of_op_four h] at hop ⊢
    rw [encode, hop, fieldAt_grpField, fieldAt_crdField, fieldAt_posField, fieldAt_negField]
    simp only [← BitVec.and_or_distrib_left]
    rfl
  · rw [decode_of_op_five h] at hop ⊢
    rw [encode, hop, fieldAt_grpField, fieldAt_crdField]
    simp only [← BitVec.and_or_distrib_left]
    rfl
  · rw [decode_of_op_six h] at hop ⊢
    exact BitVec.or_zero.trans hop
  · rw [decode_of_op_seven h] at hop ⊢
    exact BitVec.or_zero.trans hop

/-- Settles O5. -/
theorem encodeDecodeClearsIgnoredBits : Obligations.EncodeDecodeClearsIgnoredBits :=
  fun w => ⟨wf_decode w, encode_decode w⟩

/-! ### The ignored bits (30_encoding.md R64) -/

/-- The opcode's bits are used by every command. -/
theorem usedBits_opcode (op : Nat) : usedBits op &&& 0xE0000000 = 0xE0000000 := by
  unfold usedBits
  split <;> rfl

theorem opcode_congr {w v : Word} (h : v &&& 0xE0000000 = w &&& 0xE0000000) :
    v.toNat / 2 ^ 29 = w.toNat / 2 ^ 29 := by
  rw [← toNat_opField, ← toNat_opField, opField, opField, extractLsb'_congr h (by decide)]

/-- Words of one command that agree on its used bits have the same encoding of their command, so the same command. -/
theorem decode_congr {w v : Word} (h : v &&& usedBits (w.toNat / 2 ^ 29) = w &&& usedBits (w.toNat / 2 ^ 29)) :
    decode v = decode w := by
  have hop : v.toNat / 2 ^ 29 = w.toNat / 2 ^ 29 := by
    refine opcode_congr ?_
    rw [← usedBits_opcode (w.toNat / 2 ^ 29), ← BitVec.and_assoc, h, BitVec.and_assoc]
  calc decode v
    _ = decode (encode (decode v)) := (decode_encode (wf_decode v)).symm
    _ = decode (encode (decode w)) := by rw [encode_decode, encode_decode, hop, h]
    _ = decode w := decode_encode (wf_decode w)

/-- `decode_congr` with the opcode `op` given by the word's top bits. -/
theorem decode_congr_of_opcode {w v : Word} (op : Fin 8) (hop : w &&& 0xE0000000 = BitVec.ofNat 32 (op.val * 2 ^ 29))
    (h : v &&& usedBits op.val = w &&& usedBits op.val) : decode v = decode w := by
  refine decode_congr ?_
  have hmask : ∀ k : Fin 8, BitVec.ofNat 32 (k.val * 2 ^ 29) &&& 0xE0000000 = BitVec.ofNat 32 (k.val * 2 ^ 29) ∧
      (BitVec.ofNat 32 (k.val * 2 ^ 29)).toNat / 2 ^ 29 = k.val := by decide
  obtain ⟨hm, hv⟩ := hmask op
  rwa [opcode_congr (hop.trans hm.symm), hv]

/-- Settles O4: the masks are those of the used bits, and the effect is that of the decoded command. -/
theorem ignoredBitsDoNotMatter : Obligations.IgnoredBitsDoNotMatter := by
  intro w v h
  have hdecode : decode v = decode w := by
    rcases h with ⟨hop, h⟩ | ⟨hop, h⟩ | ⟨hop, h⟩ | ⟨hop, h⟩ | ⟨hop, h⟩ | ⟨hop, h⟩ | ⟨hop, h⟩ | ⟨hop, h⟩
    · exact decode_congr_of_opcode 0 hop h
    · exact decode_congr_of_opcode 1 hop h
    · exact decode_congr_of_opcode 2 hop h
    · exact decode_congr_of_opcode 3 hop h
    · exact decode_congr_of_opcode 4 hop h
    · exact decode_congr_of_opcode 5 hop h
    · exact decode_congr_of_opcode 6 hop h
    · exact decode_congr_of_opcode 7 hop h
  exact ⟨hdecode, fun s => by rw [hdecode]⟩

/-! ### Worked words, and every word (30_encoding.md R61, R74, R78) -/

/-- Settles O1: the tabled words, evaluated. -/
theorem workedEncodings : Obligations.WorkedEncodings := by
  unfold Obligations.WorkedEncodings
  decide

theorem tableWord_toNat (w : Word) : tableWord 32 w.toNat = w := by
  rw [tableWord, Nat.mod_eq_of_lt w.isLt, BitVec.ofNat_toNat, BitVec.setWidth_eq]

/-- Settles O6: 32 bits are the word itself, and more are the one reason to refuse. -/
theorem everyWordDecodes : Obligations.EveryWordDecodes := by
  constructor
  · intro w
    rw [decodeTableWord, decodeBits, if_pos le_rfl, tableWord_toNat]
  · intro nbits w h
    exact if_neg (by omega)

end Sys2Proof
end

section
/-! SUPPORT. The encoding family, around the command word: the assembler and its pseudo-instructions (30_encoding.md
section 5), the inputs a state reads (30_encoding.md section 4) and the status codes (30_encoding.md section 3). -/

namespace Sys2Proof.Machine

/-! ### The assembler (30_encoding.md R75, R76, R77) -/

/-- Settles O7: each mnemonic with its operands selects the arm of its command, whose word is written where it is
well formed. -/
theorem assemblerWritesTheEncodedWord : Obligations.AssemblerWritesTheEncodedWord := by
  intro i
  refine ⟨fun h => if_pos h, fun h => if_neg (by simp [h]), ?_, ?_, ?_, ?_, ?_⟩ <;> simp [assembleNumbers]

/-- The pin pairs of the encoder's patterns: current sense, differential, single-ended
(40_channel_encoder.md R81 to R83). -/
def RecognisedPair (p n : Nat) : Prop :=
  p = 21 ∨ (p % 2 = 1 ∧ 1 ≤ p ∧ p ≤ 19 ∧ n = p + 1) ∨ (n = 0 ∧ 1 ≤ p ∧ p ≤ 20)

theorem RecognisedPair.kind_ne {p n : Nat} (h : RecognisedPair p n) : (encodeChannel p n).2 ≠ .unrecognised := by
  rcases encodeChannel_cases p n with ⟨-, e⟩ | ⟨-, -, -, -, -, e⟩ | ⟨-, -, -, e⟩ | ⟨h1, h2, h3, -⟩
  · simp [e]
  · simp [e]
  · simp [e]
  · exact absurd h (by simp [RecognisedPair, h1, h2, h3])

/-- Where its constraint holds, a pseudo-instruction expands to a SET_CHANNEL of one of the patterns. -/
theorem expand_eq_ok {q : Pseudo} {i : Instr} (h : expand q = .ok i) :
    ∃ grp crd p n, i = .setChannel grp crd p n ∧ RecognisedPair p n := by
  cases q with
  | setSe grp crd p =>
    simp only [expand] at h
    split at h
    next hp => cases h; exact ⟨grp, crd, p, 0, rfl, .inr (.inr ⟨rfl, hp⟩)⟩
    next => cases h
  | setDiff grp crd p =>
    simp only [expand] at h
    split at h
    next hp => cases h; exact ⟨grp, crd, p, p + 1, rfl, .inr (.inl ⟨hp.1, hp.2.1, hp.2.2, rfl⟩)⟩
    next => cases h
  | setCurrent grp crd => cases h; exact ⟨grp, crd, 21, 0, rfl, .inl rfl⟩

/-- Settles O8: each expansion is a pair of one of the encoder's patterns. -/
theorem pseudoInstructionsExpandToRecognisedPairs : Obligations.PseudoInstructionsExpandToRecognisedPairs := by
  refine ⟨fun _ _ _ => rfl, fun _ _ _ => rfl, fun _ _ => rfl, fun q i h => ?_⟩
  obtain ⟨grp, crd, p, n, hi, hp⟩ := expand_eq_ok h
  exact ⟨grp, crd, p, n, hi, hp.kind_ne⟩

/-! ### The inputs a state reads (30_encoding.md R72, 43_commit_fsm.md R131, R134, R141)

The scripted sample is read by `step` alone, which hands it to the edge: changing it in the state commutes with the
edge, and its passing uses it up. -/

theorem exec_withSample (q : Pins) (i : Instr) (s : State) :
    exec i (s.withSample q) = mapNext (State.withSample · q) (exec i s) := by
  cases i with
  | reserved000 => rfl
  | reserved110 => rfl
  | reserved111 => rfl
  | clearAll => rfl
  | addGroup count => exact ite_eq_mapNext rfl (ite_eq_mapNext rfl rfl)
  | clearGroup grp => exact ite_eq_mapNext (ite_eq_mapNext rfl rfl) rfl
  | setChannel grp crd p n => exact ite_eq_mapNext (ite_eq_mapNext (ite_eq_mapNext rfl rfl) rfl) rfl
  | readImage grp crd => exact ite_eq_mapNext (ite_eq_mapNext (ite_eq_mapNext rfl rfl) rfl) rfl

theorem xferEdge_withSample (p q : Pins) (s : State) :
    xferEdge p (s.withSample q) = mapNext (State.withSample · q) (xferEdge p s) := by
  have hread : (s.withSample q).memRead (s.withSample q).ptr = s.memRead s.ptr := rfl
  rw [xferEdge, xferEdge, hread]
  refine ite_eq_mapNext rfl ?_
  cases s.memRead s.ptr with
  | none => rfl
  | some b => exact ite_eq_mapNext (ite_eq_mapNext rfl rfl) rfl

theorem fsmEdge_withSample (p q : Pins) (s : State) :
    fsmEdge p (s.withSample q) = mapNext (State.withSample · q) (fsmEdge p s) := by
  have hstate : (s.withSample q).state = s.state := rfl
  rw [fsmEdge, fsmEdge, hstate]
  cases s.state with
  | idle => exact ite_eq_mapNext rfl rfl
  | exec => exact exec_withSample q s.command s
  | unlatch => rfl
  | waitLow => exact ite_eq_mapNext rfl rfl
  | xfer => exact xferEdge_withSample p q s
  | drain => exact ite_eq_mapNext rfl rfl
  | latch => rfl
  | waitHigh => exact ite_eq_mapNext rfl rfl
  | verify => rfl
  | resp => exact ite_eq_mapNext rfl rfl
  | unused k => rfl

theorem afterEdge_mapNext_withSample (q : Pins) (out : Host.Outcome State Fault Refusal) :
    afterEdge (mapNext (State.withSample · q) out) = afterEdge out := by
  cases out <;> rfl

/-- The coming sample acts through the edge alone. -/
theorem step_withSample (p : Pins) (s : State) : step (s.withSample p) = afterEdge (edge p s) :=
  calc step (s.withSample p)
    _ = afterEdge (edge p (s.withSample p)) := rfl
    _ = afterEdge (mapNext (State.withSample · p) (edge p s)) :=
        congrArg afterEdge (ite_eq_mapNext rfl (fsmEdge_withSample p p s))
    _ = afterEdge (edge p s) := afterEdge_mapNext_withSample p _

/-- A cycle reads the inputs of the state it is spent in. -/
theorem fsmEdge_congr_pins {s : State} {p q : Pins}
    (hidle : s.state = .idle → p.cmdValid = q.cmdValid ∧ (p.cmdValid = true → p.cmdWord = q.cmdWord))
    (hxfer : s.state = .xfer → p.txReady = q.txReady) (hdrain : s.state = .drain → p.txIdle = q.txIdle)
    (hverify : s.state = .verify → p.faultOk = q.faultOk) (hresp : s.state = .resp → p.rspReady = q.rspReady) :
    fsmEdge p s = fsmEdge q s := by
  unfold fsmEdge
  cases hs : s.state with
  | idle =>
    obtain ⟨hvalid, hword⟩ := hidle hs
    simp only [idleEdge, ← hvalid]
    split
    next hv => rw [hword hv]
    next => rfl
  | exec => rfl
  | unlatch => rfl
  | waitLow => rfl
  | xfer => simp only [xferEdge, hxfer hs]
  | drain => simp only [drainEdge, hdrain hs]
  | latch => rfl
  | waitHigh => rfl
  | verify => simp only [verifyEdge, hverify hs]
  | resp => simp only [respEdge, hresp hs]
  | unused k => rfl

/-- Settles O42: the step is the edge under the sample, and the cycle reads its own inputs. -/
theorem inputsAreReadInTheirOwnState : Obligations.InputsAreReadInTheirOwnState := by
  intro s p q hrst hidle hxfer hdrain hverify hresp
  rw [step_withSample, step_withSample, edge, edge, hrst, fsmEdge_congr_pins hidle hxfer hdrain hverify hresp]

/-! ### The status codes (30_encoding.md R70, 60_exceptions.md R150, R155) -/

theorem statusCode_le (code : Status) : (statusCode code).toNat ≤ 5 := by
  cases code <;> decide

theorem statusCode_eq_fault {code : Status} : statusCode code = 1 ↔ code = .faultSeen := by
  cases code <;> decide

/-- A command answers a defined status other than FAULT. -/
theorem exec_statusQ {i : Instr} {s t : State} (h : exec i s = .next t) :
    ∃ code, code ≠ .faultSeen ∧ t.statusQ = statusCode code := by
  rcases exec_next h with ⟨code, -, hcode, rfl⟩ | ⟨_, -, -, -, rfl⟩ | ⟨-, rfl⟩ | ⟨_, -, -, -, rfl⟩ |
    ⟨_, _, _, _, -, -, -, -, -, rfl⟩ | ⟨_, _, -, -, -, -, -, rfl⟩
  · exact ⟨code, hcode, rfl⟩
  all_goals exact ⟨.ok, by decide, rfl⟩

/-- The status at a step: as it was, a defined one other than FAULT, or the verdict of `S_VERIFY` on its sample. -/
theorem step_statusQ {s t : State} (h : step s = .next t) :
    t.statusQ = s.statusQ ∨ (∃ code, code ≠ .faultSeen ∧ t.statusQ = statusCode code) ∨
      (s.state = .verify ∧ t.statusQ = statusCode (verifyStatus s.nextPins.faultOk)) := by
  rcases step_next h with ⟨-, rfl⟩ | ⟨hr, u, hu, rfl⟩
  · exact .inr (.inl ⟨.ok, by decide, rfl⟩)
  by_cases hk : u.tick.statusQ = s.statusQ
  · exact .inl hk
  obtain ⟨-, -, -, -, -, -, hstatus, -⟩ := writeMatrix s _ h hr
  rcases hstatus hk with hs | hs
  · rw [fsmEdge_of_exec hs] at hu
    obtain ⟨code, hcode, e⟩ := exec_statusQ hu
    exact .inr (.inl ⟨code, hcode, e⟩)
  · simp only [fsmEdge, hs, verifyEdge] at hu
    cases hu
    exact .inr (.inr ⟨hs, rfl⟩)

/-- Settles O46: a status that is written has a code, and FAULT is a verdict of `S_VERIFY` alone. -/
theorem statusCodesStayDefined : Obligations.StatusCodesStayDefined := by
  intro s t h
  rcases step_statusQ h with e | ⟨code, hcode, e⟩ | ⟨hs, e⟩ <;> rw [e]
  · exact ⟨id, fun hfault hne => absurd hfault hne⟩
  · exact ⟨fun _ => statusCode_le code, fun hfault => absurd (statusCode_eq_fault.1 hfault) hcode⟩
  · refine ⟨fun _ => statusCode_le _, fun hfault _ => ⟨hs, ?_⟩⟩
    cases hok : s.nextPins.faultOk with
    | false => rfl
    | true => rw [hok] at hfault; cases hfault

end Sys2Proof.Machine
end

section
/-! SUPPORT. The channel encoder family: the four patterns as equations, the bytes of an image, and the pin pairs of each
pattern, from which the counts are read off (40_channel_encoder.md). -/

namespace Sys2Proof.Machine

/-! ### The patterns (40_channel_encoder.md R80 to R84) -/

theorem encodeChannel_currentSense (n : Nat) : encodeChannel 21 n = (packImage 0x00 0x02 0x00, .currentSense) :=
  if_pos rfl

theorem encodeChannel_differential {p : Nat} (hodd : p % 2 = 1) (h1 : 1 ≤ p) (h2 : p ≤ 19) :
    encodeChannel p (p + 1) = (pinImage p 0x10, .differential) := by
  rw [encodeChannel, if_neg (by omega), if_pos ⟨hodd, h1, h2, rfl⟩]

theorem encodeChannel_singleEnded {p : Nat} (h1 : 1 ≤ p) (h2 : p ≤ 20) :
    encodeChannel p 0 = (pinImage p (if p % 2 = 1 then 0x08 else 0x04), .singleEnded) := by
  rw [encodeChannel, if_neg (by omega), if_neg (by omega), if_pos ⟨rfl, h1, h2⟩]

/-- A pin's byte is the entry of the table at its index, in `B0` or `B1` by its range (40_channel_encoder.md R80). -/
theorem pinImage_tableEntry {p : Nat} (h1 : 1 ≤ p) (h2 : p ≤ 20) :
    ∃ t : Byte, pinPairTable[(p - (if p ≤ 10 then 0 else 10) - 1) / 2]? = some t ∧
      ∀ b2, pinImage p b2 = if p ≤ 10 then packImage t 0 b2 else packImage 0 t b2 := by
  have entry : ∀ i < 5, pinPairTable[i]? = some (tableByte i) := by decide
  by_cases h : p ≤ 10
  · refine ⟨tableByte ((p - 1) / 2), ?_, fun b2 => by simp only [pinImage, if_pos h]⟩
    rw [if_pos h, Nat.sub_zero]
    exact entry _ (by omega)
  · refine ⟨tableByte ((p - 11) / 2), ?_, fun b2 => by simp only [pinImage, if_neg h]⟩
    rw [if_neg h, Nat.sub_sub]
    exact entry _ (by omega)

/-- Settles O9: each pattern is an equation of the encoder, and the pin's byte is its table entry. -/
theorem encoderFollowsPatternRules : Obligations.EncoderFollowsPatternRules := by
  intro p n
  refine ⟨?currentSense, ?differential, ?singleEnded, ?unrecognised⟩
  case currentSense =>
    rintro rfl
    rw [encodeChannel_currentSense]
    exact ⟨rfl, rfl⟩
  case differential =>
    rintro hodd h1 h2 rfl
    obtain ⟨t, ht, himage⟩ := pinImage_tableEntry h1 (by omega : p ≤ 20)
    rw [encodeChannel_differential hodd h1 h2]
    exact ⟨t, ht, himage _, rfl⟩
  case singleEnded =>
    rintro rfl h1 h2
    obtain ⟨t, ht, himage⟩ := pinImage_tableEntry h1 h2
    rw [encodeChannel_singleEnded h1 h2]
    exact ⟨t, ht, himage _, rfl⟩
  case unrecognised =>
    intro h1 h2 h3
    rw [encodeChannel, if_neg h1, if_neg h2, if_neg h3]
    exact ⟨rfl, rfl⟩

/-! ### The bytes of an image (40_channel_encoder.md R87) -/

/-- One table bit in exactly one of `B0` and `B1` (40_channel_encoder.md R87). -/
def OneTableBit (b0 b1 : Byte) : Prop := (b0 ∈ pinPairTable ∧ b1 = 0x00) ∨ (b0 = 0x00 ∧ b1 ∈ pinPairTable)

theorem pinImage_oneTableBit {p : Nat} (h1 : 1 ≤ p) (h2 : p ≤ 20) (b2 : Byte) :
    ∃ b0 b1, OneTableBit b0 b1 ∧ pinImage p b2 = packImage b0 b1 b2 := by
  obtain ⟨t, ht, ⟨-, e⟩ | ⟨-, e⟩⟩ := pinImage_cases h1 h2 b2
  · exact ⟨t, 0, .inl ⟨ht, rfl⟩, e⟩
  · exact ⟨0, t, .inr ⟨rfl, ht⟩, e⟩

theorem OneTableBit.values {b0 b1 : Byte} (h : OneTableBit b0 b1) : b0 ∈ 0x00 :: pinPairTable ∧
    b1 ∈ ([0x00, 0x80, 0x40, 0x10, 0x08, 0x04, 0x02] : List Byte) ∧ b0 &&& 0x23 = 0 ∧ b1 &&& 0x21 = 0 := by
  have entry : ∀ t ∈ pinPairTable, t ∈ ([0x00, 0x80, 0x40, 0x10, 0x08, 0x04, 0x02] : List Byte) ∧
      t &&& 0x23 = 0 ∧ t &&& 0x21 = 0 := by decide
  rcases h with ⟨h, rfl⟩ | ⟨rfl, h⟩
  · exact ⟨List.mem_cons_of_mem _ h, by decide, (entry b0 h).2.1, by decide⟩
  · exact ⟨by decide, (entry b1 h).1, by decide, (entry b1 h).2.2⟩

theorem packImage_ne_zero (b0 b1 : Byte) {b2 : Byte} (h : b2 ≠ 0) : packImage b0 b1 b2 ≠ 0 := fun e =>
  h (by rw [← imageByte_packImage_two b0 b1 b2, e, imageByte_zero])

theorem pinImage_ne_zero {p : Nat} (h1 : 1 ≤ p) (h2 : p ≤ 20) {b2 : Byte} (h : b2 ≠ 0) : pinImage p b2 ≠ 0 := by
  obtain ⟨b0, b1, -, e⟩ := pinImage_oneTableBit h1 h2 b2
  rw [e]
  exact packImage_ne_zero b0 b1 h

/-- `B2` of a single-ended pair (40_channel_encoder.md R83). -/
theorem singleEnded_b2 (p : Nat) : (if p % 2 = 1 then 0x08 else 0x04 : Byte) = 0x08 ∨
    (if p % 2 = 1 then 0x08 else 0x04 : Byte) = 0x04 := by
  by_cases h : p % 2 = 1
  · exact .inl (if_pos h)
  · exact .inr (if_neg h)

/-- The image is 0 exactly where no pattern is recognised. -/
theorem encodeChannel_image_eq_zero {p n : Nat} :
    (encodeChannel p n).1 = 0 ↔ (encodeChannel p n).2 = .unrecognised := by
  rcases encodeChannel_cases p n with ⟨-, e⟩ | ⟨-, -, h1, h2, -, e⟩ | ⟨-, h1, h2, e⟩ | ⟨-, -, -, e⟩ <;> rw [e]
  · decide
  · exact iff_of_false (pinImage_ne_zero h1 (by omega) (by decide)) nofun
  · refine iff_of_false (pinImage_ne_zero h1 h2 ?_) nofun
    rcases singleEnded_b2 p with hb | hb <;> rw [hb] <;> decide
  · exact iff_of_true rfl rfl

theorem kindCode_eq_zero {k : Kind} : kindCode k = 0 ↔ k = .unrecognised := by cases k <;> decide

/-- Settles O10: a recognised pin gives one table bit beside the pattern's `B2`, the other images are constants. -/
theorem encoderOutputInvariants : Obligations.EncoderOutputInvariants := by
  intro p n
  have hkind := kindCode_eq_zero.trans (encodeChannel_image_eq_zero (p := p) (n := n)).symm
  rcases encodeChannel_cases p n with ⟨-, e⟩ | ⟨-, -, h1, h2, -, e⟩ | ⟨-, h1, h2, e⟩ | ⟨-, -, -, e⟩ <;>
    rw [e] at hkind ⊢
  · exact ⟨0x00, 0x02, 0x00, by decide, by decide, by decide, by decide, .inr (.inl ⟨rfl, rfl, rfl, rfl⟩),
      by decide, hkind⟩
  · obtain ⟨b0, b1, hbit, himage⟩ := pinImage_oneTableBit h1 (by omega : p ≤ 20) 0x10
    obtain ⟨hb0, hb1, hnever0, hnever1⟩ := hbit.values
    exact ⟨b0, b1, 0x10, himage, hb0, hb1, by decide, .inr (.inr (.inl ⟨rfl, rfl, hbit⟩)),
      ⟨hnever0, hnever1, by decide⟩, hkind⟩
  · obtain ⟨b0, b1, hbit, himage⟩ := pinImage_oneTableBit h1 h2 (if p % 2 = 1 then 0x08 else 0x04)
    obtain ⟨hb0, hb1, hnever0, hnever1⟩ := hbit.values
    have hb2 : ∀ b : Byte, b = 0x08 ∨ b = 0x04 → b ∈ ([0x00, 0x10, 0x08, 0x04] : List Byte) ∧ b &&& 0xE3 = 0 := by
      rintro b (rfl | rfl) <;> decide
    obtain ⟨hmem, hnever2⟩ := hb2 _ (singleEnded_b2 p)
    exact ⟨b0, b1, _, himage, hb0, hb1, hmem, .inr (.inr (.inr ⟨rfl, singleEnded_b2 p, hbit⟩)),
      ⟨hnever0, hnever1, hnever2⟩, hkind⟩
  · exact ⟨0x00, 0x00, 0x00, by decide, by decide, by decide, by decide, .inl rfl, by decide, hkind⟩

/-! ### The pin pairs of each pattern (40_channel_encoder.md R90, R91)

The pairs of a kind among those below `m` are listed once; the counts and the distinct images are those of the list. -/

theorem kind_eq_currentSense {p n : Nat} : (encodeChannel p n).2 = .currentSense ↔ p = 21 := by
  rcases encodeChannel_cases p n with ⟨h, e⟩ | ⟨h, -, -, -, -, e⟩ | ⟨-, -, h, e⟩ | ⟨h, -, -, e⟩ <;> rw [e]
  · exact iff_of_true rfl h
  · exact iff_of_false nofun h
  · exact iff_of_false nofun (by omega)
  · exact iff_of_false nofun h

theorem kind_eq_differential {p n : Nat} :
    (encodeChannel p n).2 = .differential ↔ p % 2 = 1 ∧ 1 ≤ p ∧ p ≤ 19 ∧ n = p + 1 := by
  rcases encodeChannel_cases p n with ⟨h, e⟩ | ⟨-, hodd, h1, h2, hn, e⟩ | ⟨h, -, -, e⟩ | ⟨-, h, -, e⟩ <;> rw [e]
  · exact iff_of_false nofun (by omega)
  · exact iff_of_true rfl ⟨hodd, h1, h2, hn⟩
  · exact iff_of_false nofun (by omega)
  · exact iff_of_false nofun h

theorem kind_eq_singleEnded {p n : Nat} : (encodeChannel p n).2 = .singleEnded ↔ n = 0 ∧ 1 ≤ p ∧ p ≤ 20 := by
  rcases encodeChannel_cases p n with ⟨h, e⟩ | ⟨-, -, -, -, h, e⟩ | ⟨hn, h1, h2, e⟩ | ⟨-, -, h, e⟩ <;> rw [e]
  · exact iff_of_false nofun (by omega)
  · exact iff_of_false nofun (by omega)
  · exact iff_of_true rfl ⟨hn, h1, h2⟩
  · exact iff_of_false nofun h

/-- The pin pairs below `m` that a pattern recognises (40_channel_encoder.md R90). -/
def patternPairs (m : Nat) : Kind → List (Nat × Nat)
  | .unrecognised => []
  | .currentSense => (List.range m).map fun n => (21, n)
  | .differential => (List.range 10).map fun i => (2 * i + 1, 2 * i + 2)
  | .singleEnded => (List.range 20).map fun i => (i + 1, 0)

/-- The pin pairs below `m` that some pattern recognises (40_channel_encoder.md R90). -/
def recognisedPairs (m : Nat) : List (Nat × Nat) :=
  patternPairs m .currentSense ++ patternPairs m .differential ++ patternPairs m .singleEnded

theorem nodup_patternPairs (m : Nat) (k : Kind) : (patternPairs m k).Nodup := by
  cases k with
  | unrecognised => exact List.nodup_nil
  | currentSense => exact List.nodup_range.map fun _ _ h => (Prod.mk.inj h).2
  | differential => exact List.nodup_range.map fun i j h => by have := (Prod.mk.inj h).1; omega
  | singleEnded => exact List.nodup_range.map fun i j h => by have := (Prod.mk.inj h).1; omega

/-- Past pin 21 the list is complete: its pairs are those of the kind. -/
theorem mem_patternPairs {m : Nat} (hm : 22 ≤ m) {k : Kind} (hk : k ≠ .unrecognised) {x : Nat × Nat} :
    x ∈ patternPairs m k ↔ (x.1 < m ∧ x.2 < m) ∧ (encodeChannel x.1 x.2).2 = k := by
  obtain ⟨p, n⟩ := x
  cases k with
  | unrecognised => exact absurd rfl hk
  | currentSense =>
    simp only [patternPairs, List.mem_map, List.mem_range, Prod.mk.injEq, kind_eq_currentSense]
    exact ⟨fun ⟨i, hi, hp, hn⟩ => by omega, fun ⟨⟨_, hn⟩, hp⟩ => ⟨n, hn, hp.symm, rfl⟩⟩
  | differential =>
    simp only [patternPairs, List.mem_map, List.mem_range, Prod.mk.injEq, kind_eq_differential]
    exact ⟨fun ⟨i, hi, hp, hn⟩ => by omega, fun ⟨_, h⟩ => ⟨p / 2, by omega⟩⟩
  | singleEnded =>
    simp only [patternPairs, List.mem_map, List.mem_range, Prod.mk.injEq, kind_eq_singleEnded]
    exact ⟨fun ⟨i, hi, hp, hn⟩ => by omega, fun ⟨_, h⟩ => ⟨p - 1, by omega⟩⟩

theorem mem_recognisedPairs {m : Nat} (hm : 22 ≤ m) {x : Nat × Nat} :
    x ∈ recognisedPairs m ↔ (x.1 < m ∧ x.2 < m) ∧ (encodeChannel x.1 x.2).1 ≠ 0 := by
  rw [recognisedPairs, List.mem_append, List.mem_append, mem_patternPairs hm (by decide),
    mem_patternPairs hm (by decide), mem_patternPairs hm (by decide), ← and_or_left, ← and_or_left, Ne,
    encodeChannel_image_eq_zero]
  cases (encodeChannel x.1 x.2).2 <;> simp

theorem nodup_recognisedPairs {m : Nat} (hm : 22 ≤ m) : (recognisedPairs m).Nodup := by
  have kindOf {k : Kind} (hk : k ≠ .unrecognised) {x : Nat × Nat} (h : x ∈ patternPairs m k) :
      (encodeChannel x.1 x.2).2 = k := ((mem_patternPairs hm hk).1 h).2
  refine ((nodup_patternPairs m _).append (nodup_patternPairs m _) ?_).append (nodup_patternPairs m _) ?_
  · intro x hc hd
    exact absurd ((kindOf (by decide) hc).symm.trans (kindOf (by decide) hd)) (by decide)
  · intro x hcd hs
    rcases List.mem_append.1 hcd with hc | hd
    · exact absurd ((kindOf (by decide) hc).symm.trans (kindOf (by decide) hs)) (by decide)
    · exact absurd ((kindOf (by decide) hd).symm.trans (kindOf (by decide) hs)) (by decide)

/-- The pin pairs below `m`. -/
def pinPairs (m : Nat) : List (Nat × Nat) := List.range m ×ˢ List.range m

theorem flatMap_range_eq_map_pinPairs {α : Type} (m : Nat) (f : Nat → Nat → α) :
    ((List.range m).flatMap fun p => (List.range m).map fun n => f p n) = (pinPairs m).map fun x => f x.1 x.2 := by
  simp only [pinPairs, SProd.sprod, List.product, List.map_flatMap, List.map_map, Function.comp_def]

/-- A filter of the pin pairs is, up to order, any duplicate-free list of the pairs it selects. -/
theorem filter_pinPairs_perm {m : Nat} {l : List (Nat × Nat)} (q : Nat × Nat → Bool) (hl : l.Nodup)
    (h : ∀ x, x ∈ l ↔ (x.1 < m ∧ x.2 < m) ∧ q x = true) : ((pinPairs m).filter q).Perm l := by
  refine (List.perm_ext_iff_of_nodup ((List.nodup_range.product List.nodup_range).filter q) hl).2 fun x => ?_
  rw [h, List.mem_filter, List.mem_product, List.mem_range, List.mem_range]

theorem filter_kind_perm {m : Nat} (hm : 22 ≤ m) {k : Kind} (hk : k ≠ .unrecognised) :
    ((pinPairs m).filter fun x => (encodeChannel x.1 x.2).2 = k).Perm (patternPairs m k) :=
  filter_pinPairs_perm _ (nodup_patternPairs m k) fun x => by rw [mem_patternPairs hm hk, decide_eq_true_iff]

theorem filter_image_ne_zero_perm {m : Nat} (hm : 22 ≤ m) :
    ((pinPairs m).filter fun x => (encodeChannel x.1 x.2).1 ≠ 0).Perm (recognisedPairs m) :=
  filter_pinPairs_perm _ (nodup_recognisedPairs hm) fun x => by rw [mem_recognisedPairs hm, decide_eq_true_iff]

/-- A kind is recognised among the pin pairs as often as it has pairs. -/
theorem count_kind {m : Nat} (hm : 22 ≤ m) {k : Kind} (hk : k ≠ .unrecognised) :
    ((pinPairs m).map fun x => (encodeChannel x.1 x.2).2).count k = (patternPairs m k).length := by
  rw [List.count_eq_countP, List.countP_map, List.countP_eq_length_filter, ← (filter_kind_perm hm hk).length_eq]
  rfl

/-- The pairs of no pattern are the rest of the `m * m` pin pairs. -/
theorem count_unrecognised {m : Nat} (hm : 22 ≤ m) :
    ((pinPairs m).map fun x => (encodeChannel x.1 x.2).2).count .unrecognised = m * m - (recognisedPairs m).length := by
  have hnot : ((pinPairs m).map fun x => (encodeChannel x.1 x.2).2).count .unrecognised =
      ((pinPairs m).filter fun x => !decide ((encodeChannel x.1 x.2).1 ≠ 0)).length := by
    rw [List.count_eq_countP, List.countP_map, List.countP_eq_length_filter]
    simp only [Function.comp_def, beq_eq_decide, encodeChannel_image_eq_zero, Ne, decide_not, Bool.not_not]
  have hall : (pinPairs m).length = m * m := by rw [pinPairs, List.length_product, List.length_range]
  have hsplit := (pinPairs m).length_eq_length_filter_add fun x => decide ((encodeChannel x.1 x.2).1 ≠ 0)
  rw [hall, (filter_image_ne_zero_perm hm).length_eq, ← hnot] at hsplit
  omega

/-- The images of one pattern, pair by pair. -/
theorem images_of_kind_perm {m : Nat} (hm : 22 ≤ m) {k : Kind} (hk : k ≠ .unrecognised) :
    ((((pinPairs m).map fun x => encodeChannel x.1 x.2).filter fun y => y.2 = k).map Prod.fst).Perm
      ((patternPairs m k).map fun x => (encodeChannel x.1 x.2).1) := by
  rw [List.filter_map, List.map_map]
  exact (filter_kind_perm hm hk).map _

/-- The images of all patterns, pair by pair. -/
theorem images_ne_zero_perm {m : Nat} (hm : 22 ≤ m) :
    ((((pinPairs m).map fun x => encodeChannel x.1 x.2).map Prod.fst).filter fun img => img ≠ 0).Perm
      ((recognisedPairs m).map fun x => (encodeChannel x.1 x.2).1) := by
  rw [List.map_map, List.filter_map]
  exact (filter_image_ne_zero_perm hm).map _

/-- Settles O11: the counts are the lengths of the lists of R90, and the distinct images are those of their pairs. -/
theorem encoderCounts : Obligations.EncoderCounts := by
  have counts : ∀ x ∈ [(Kind.currentSense, 32), (.differential, 10), (.singleEnded, 20), (.unrecognised, 962)],
      ((pinPairs 32).map fun x => (encodeChannel x.1 x.2).2).count x.1 = x.2 := by
    simp only [List.forall_mem_cons]
    exact ⟨count_kind (by decide) nofun, count_kind (by decide) nofun, count_kind (by decide) nofun,
      count_unrecognised (by decide), nofun⟩
  have distinct : ∀ x ∈ [(Kind.currentSense, 1), (.differential, 10), (.singleEnded, 20)], x.1 ≠ .unrecognised ∧
      ((patternPairs 22 x.1).map fun x => (encodeChannel x.1 x.2).1).dedup.length = x.2 := by decide
  have distinctAll : ((recognisedPairs 22).map fun x => (encodeChannel x.1 x.2).1).dedup.length = 31 := by decide
  unfold Obligations.EncoderCounts
  simp only [flatMap_range_eq_map_pinPairs]
  refine ⟨counts, fun x hx => ?_, (images_ne_zero_perm (by decide)).dedup.length_eq.trans distinctAll⟩
  obtain ⟨hk, hlength⟩ := distinct x hx
  exact (images_of_kind_perm (by decide) hk).dedup.length_eq.trans hlength

end Sys2Proof.Machine
end

section
/-! SUPPORT. The aggregator family: `group_set` as one loop over the slots of the group, its case of an unrecognised pair,
and mutual exclusion (41_group_aggregator.md). -/

namespace Sys2Proof.Machine

/-! ### One loop over the slots of a group (41_group_aggregator.md R95, R96) -/

/-- `for c in 0..n-1: IMG[g][c] <- f c`, the loop that R96 writes. -/
def storeGroup (n : Nat) (m : Memory) (g : Nat) (f : Nat → Image) : Memory :=
  (List.range n).foldl (fun m c => storeImage m g c (f c)) m

theorem storeGroup_succ (n : Nat) (m : Memory) (g : Nat) (f : Nat → Image) :
    storeGroup (n + 1) m g f = storeImage (storeGroup n m g f) g n (f n) := by
  rw [storeGroup, List.range_succ, List.foldl_append]
  rfl

/-- `group_clear(g)` is the loop that stores 0 (41_group_aggregator.md R95). -/
theorem storeGroup_zero (n : Nat) (m : Memory) (g : Nat) : storeGroup n m g (fun _ => 0) = groupClear n m g := rfl

theorem storeGroup_wf {m : Memory} (h : m.wf) (n g : Nat) (f : Nat → Image) : (storeGroup n m g f).wf := by
  induction n with
  | zero => exact h
  | succ n ih =>
    rw [storeGroup_succ]
    exact storeImage_wf ih _ _ _

/-- Byte `k` of each slot `c` of the loop is byte `k` of `f c`. -/
theorem read_storeGroup_slot {m : Memory} (h : m.wf) {n c k : Nat} (g : Nat) (f : Nat → Image) (hc : c < n)
    (hk : k < 3) : (storeGroup n m g f).read (imgAddr g c k) = imageByte (f c) k := by
  induction n with
  | zero => omega
  | succ n ih =>
    rw [storeGroup_succ, read_storeImage (storeGroup_wf h n g f)]
    rcases Nat.lt_succ_iff_lt_or_eq.1 hc with hlt | rfl
    · rw [if_neg (by simp only [imgAddr]; omega)]
      exact ih hlt
    · rw [if_pos (by simp only [imgAddr]; omega), show imgAddr g c k - imgAddr g c 0 = k by simp only [imgAddr]; omega]

/-- The loop leaves every byte outside its slots. -/
theorem read_storeGroup_outside {m : Memory} (h : m.wf) {n g a : Nat} (f : Nat → Image)
    (ha : ¬ (imgAddr g 0 0 ≤ a ∧ a < imgAddr g n 0)) : (storeGroup n m g f).read a = m.read a := by
  induction n with
  | zero => rfl
  | succ n ih =>
    simp only [imgAddr] at ha ih
    rw [storeGroup_succ, read_storeImage (storeGroup_wf h n g f), if_neg (by simp only [imgAddr]; omega)]
    exact ih (by omega)

/-- A byte between the first slot and slot `n` is byte `k` of one of the slots between. -/
theorem exists_slot_of_between {g n a : Nat} (ha : imgAddr g 0 0 ≤ a ∧ a < imgAddr g n 0) :
    ∃ c < n, ∃ k < 3, a = imgAddr g c k := by
  simp only [imgAddr] at ha ⊢
  exact ⟨a / 3 - 256 * g, by omega, a % 3, by omega, by omega⟩

/-- `group_set` is the loop of R96: the two agree on the addressed card, on the other slots and outside the group. -/
theorem groupSet_eq_storeGroup {m : Memory} (h : m.wf) {n c : Nat} (hc : c < n) (g p q : Nat) :
    groupSet n m g c p q = storeGroup n m g (fun c' => if c' = c then (encodeChannel p q).1 else 0) := by
  refine Memory.ext_read (groupSet_wf h n g c p q) (storeGroup_wf h n g _) fun a => ?_
  rw [read_groupSet h]
  by_cases ha : imgAddr g 0 0 ≤ a ∧ a < imgAddr g n 0
  · obtain ⟨c', hc', k, hk, rfl⟩ := exists_slot_of_between ha
    rw [read_storeGroup_slot h g _ hc' hk]
    by_cases hcard : c' = c
    · subst hcard
      rw [if_pos rfl, if_pos (by simp only [imgAddr]; omega),
        show imgAddr g c' k - imgAddr g c' 0 = k by simp only [imgAddr]; omega]
    · rw [if_neg hcard, if_neg (by simp only [imgAddr]; omega), if_pos ha, imageByte_zero]
  · rw [read_storeGroup_outside h _ ha, if_neg (by simp only [imgAddr] at ha ⊢; omega), if_neg ha]

/-- Settles O23, byte by byte: both sides are canonical. -/
theorem groupSetIsOneUpdate : Obligations.GroupSetIsOneUpdate :=
  fun _ _ g _ p n hm hc => groupSet_eq_storeGroup hm hc g p n

/-! ### An unrecognised pair (41_group_aggregator.md R101) -/

/-- With an unrecognised pair the loop of R96 stores 0 into every slot, which is the loop of `group_clear`. -/
theorem groupSet_unrecognised {m : Memory} (h : m.wf) {n c p q : Nat} (hc : c < n) (g : Nat)
    (hkind : (encodeChannel p q).2 = .unrecognised) : groupSet n m g c p q = groupClear n m g := by
  rw [groupSet_eq_storeGroup h hc, encodeChannel_image_eq_zero.2 hkind, ← storeGroup_zero]
  simp only [ite_self]

/-- Settles O21: the memories of the two commands are one, and the kind of the pair is the response 0. -/
theorem unrecognisedPairClearsTheGroup : Obligations.UnrecognisedPairClearsTheGroup := by
  intro s grp crd p n hc h1 h2 h3 h4 hcode
  have hkind := kindCode_eq_zero.1 hcode
  have hcards := hc.cards_le (grp - 1)
  have hmax := hc.max_le
  have hset := exec_setChannel_valid p n hc h1 h2 h3 h4
  rw [groupSet_unrecognised hc.img_wf (by omega) _ hkind, hkind] at hset
  exact ⟨_, hset, exec_clearGroup_valid hc h1 h2, rfl, fun c hcard =>
    (loadImage_groupClear hc.img_wf (by omega) _ (by omega)).trans (if_pos ⟨rfl, hcard⟩)⟩

/-! ### Mutual exclusion (41_group_aggregator.md R99) -/

/-- Settles O54: a command keeps a group's images, zeroes them, or zeroes all but the card it sets; a reset edge zeroes
all, and no other cycle writes an image. -/
theorem everyStepKeepsMutualExclusion : Obligations.EveryStepKeepsMutualExclusion :=
  fun _ _ hc hone h => step_atMostOneSelected hc hone h

end Sys2Proof.Machine
end

section
/-! SUPPORT. The command family: each command's check that fails, its effect where its checks pass, the order of the
checks, and what CLEAR_ALL leaves (42_stack_commands.md). -/

namespace Sys2Proof.Machine

/-! ### The checks that fail (42_stack_commands.md R105, R112) -/

theorem exec_addGroup_errCapacity {s : State} {count : Nat} (h : s.groups = s.cfg.gMax ∨ s.cfg.cMax < count) :
    exec (.addGroup count) s = .next (s.errorResponse .errCapacity) := if_pos h

theorem exec_clearGroup_errGroup {s : State} {grp : Nat} (h : grp = 0 ∨ s.groups < grp) :
    exec (.clearGroup grp) s = .next (s.errorResponse .errGroup) := by
  show execClearGroup grp s = _
  rw [execClearGroup, withGroup_invalid h, raiseError]

theorem exec_setChannel_errGroup {s : State} {grp : Nat} (crd p n : Nat) (h : grp = 0 ∨ s.groups < grp) :
    exec (.setChannel grp crd p n) s = .next (s.errorResponse .errGroup) := by
  show execSetChannel grp crd p n s = _
  rw [execSetChannel, withGroup_invalid h, raiseError]

theorem exec_setChannel_errCard {s : State} {grp crd : Nat} (p n : Nat) (h1 : 1 ≤ grp) (h2 : grp ≤ s.groups)
    (h : crd = 0 ∨ s.cards (grp - 1) < crd) :
    exec (.setChannel grp crd p n) s = .next (s.errorResponse .errCard) := by
  show execSetChannel grp crd p n s = _
  rw [execSetChannel, withGroup_valid ⟨h1, h2⟩, withCard_invalid h, raiseError]

theorem exec_readImage_errGroup {s : State} {grp : Nat} (crd : Nat) (h : grp = 0 ∨ s.groups < grp) :
    exec (.readImage grp crd) s = .next (s.errorResponse .errGroup) := by
  show execReadImage grp crd s = _
  rw [execReadImage, withGroup_invalid h, raiseError]

theorem exec_readImage_errCard {s : State} {grp crd : Nat} (h1 : 1 ≤ grp) (h2 : grp ≤ s.groups)
    (h : crd = 0 ∨ s.cards (grp - 1) < crd) :
    exec (.readImage grp crd) s = .next (s.errorResponse .errCard) := by
  show execReadImage grp crd s = _
  rw [execReadImage, withGroup_valid ⟨h1, h2⟩, withCard_invalid h, raiseError]

/-- Settles O17: the opcode of the word selects a reserved arm, and each of these raises ERR_OPCODE. -/
theorem reservedOpcodesAnswerErrOpcode : Obligations.ReservedOpcodesAnswerErrOpcode := by
  refine fun s => ⟨rfl, rfl, rfl, fun w hop => ?_⟩
  rcases hop with h | h | h
  · rw [decode_of_op_zero (opField_eq h)]
    rfl
  · rw [decode_of_op_six (opField_eq h)]
    rfl
  · rw [decode_of_op_seven (opField_eq h)]
    rfl

/-! ### ADD_GROUP (42_stack_commands.md R107) -/

/-- The state after an ADD_GROUP that passes its check. -/
def State.withNewGroup (s : State) (count : Nat) : State :=
  ({ s with
    img := groupClear s.cfg.cMax s.img s.groups
    cardCount := s.cardCount.set s.groups (BitVec.ofNat 8 count)
    numGroups := BitVec.ofNat 8 (s.groups + 1) } : State).okResponse (groupNumberData (s.groups + 1))

theorem exec_addGroup_valid {s : State} {count : Nat} (hc : s.Configured) (hslot : s.groups ≠ s.cfg.gMax)
    (hcount : count ≤ s.cfg.cMax) : exec (.addGroup count) s = .next (s.withNewGroup count) := by
  have := hc.groups_le
  exact (if_neg (by omega)).trans (withGroupSlots_present (by omega) _)

theorem State.groups_withNewGroup {s : State} (count : Nat) (h : s.groups < 255) :
    (s.withNewGroup count).groups = s.groups + 1 := by
  show (BitVec.ofNat 8 (s.groups + 1)).toNat = _
  rw [BitVec.toNat_ofNat, Nat.mod_eq_of_lt (by omega)]

theorem State.cards_withNewGroup_new {s : State} {count : Nat} (hslot : s.groups < s.cardCount.length)
    (hcount : count < 256) : (s.withNewGroup count).cards s.groups = count := by
  show ((s.cardCount.set s.groups (BitVec.ofNat 8 count)).getD s.groups 0).toNat = _
  simp [hslot, Nat.mod_eq_of_lt hcount]

theorem State.cards_withNewGroup_other {s : State} {g : Nat} (count : Nat) (h : g ≠ s.groups) :
    (s.withNewGroup count).cards g = s.cards g := by
  show ((s.cardCount.set s.groups (BitVec.ofNat 8 count)).getD g 0).toNat = (s.cardCount.getD g 0).toNat
  simp [List.getElem?_set_ne h.symm]

/-- Settles O12: the count and the number of groups fit their 8 bits, and `group_clear` writes the slots of the new
group alone. -/
theorem addGroupAppendsAGroup : Obligations.AddGroupAppendsAGroup := by
  refine fun s count => ⟨exec_addGroup_errCapacity, fun hc hslot hcount => ?_⟩
  have hgroups := hc.groups_le
  have hmax := hc.max_le
  have hlen : s.cardCount.length = s.cfg.gMax := hc.2.1
  exact ⟨_, exec_addGroup_valid hc hslot hcount, rfl, State.groups_withNewGroup count (by omega),
    State.cards_withNewGroup_new (by omega) (by omega), fun _ => State.cards_withNewGroup_other count,
    fun _ hcard => (loadImage_groupClear hc.img_wf (by omega) _ (by omega)).trans (if_pos ⟨rfl, hcard⟩),
    read_groupClear hc.img_wf _ _⟩

/-! ### CLEAR_GROUP, SET_CHANNEL and READ_IMAGE (42_stack_commands.md R109 to R111) -/

/-- Settles O14, from what `group_clear` does to each byte and so to each image. -/
theorem clearGroupZeroesOneGroup : Obligations.ClearGroupZeroesOneGroup := by
  refine fun s grp => ⟨exec_clearGroup_errGroup, fun hc h1 h2 => ?_⟩
  have hmax := hc.max_le
  exact ⟨_, exec_clearGroup_valid hc h1 h2, rfl,
    fun _ hcard => (loadImage_groupClear hc.img_wf (by omega) _ (by omega)).trans (if_pos ⟨rfl, hcard⟩),
    read_groupClear hc.img_wf _ _⟩

/-- The addressed group after `group_set`: the encoder's image on one card, 0 on every other (41_group_aggregator.md
R96). -/
theorem loadImage_groupSet_group {m : Memory} (h : m.wf) {n c c' : Nat} (hn : n ≤ 256) (hc : c < n) (hc' : c' < n)
    (g p q : Nat) : loadImage (groupSet n m g c p q) g c' = if c' = c then (encodeChannel p q).1 else 0 := by
  rw [loadImage_groupSet h hn hc p q (by omega)]
  simp [hc']

/-- Settles O15: a failed check raises its error before the group is cleared, and `group_set` writes the slots of the
group alone. -/
theorem setChannelSelectsOneCard : Obligations.SetChannelSelectsOneCard := by
  refine fun s grp crd p n => ⟨exec_setChannel_errGroup crd p n, exec_setChannel_errCard p n,
    fun hc h1 h2 h3 h4 => ⟨_, exec_setChannel_valid p n hc h1 h2 h3 h4, rfl, fun c hcard => ?_, fun a => ?_⟩⟩
  · have hmax := hc.max_le
    have hcards := hc.cards_le (grp - 1)
    exact loadImage_groupSet_group hc.img_wf (by omega) (by omega) hcard _ _ _
  · have hread := read_groupSet hc.img_wf s.cfg.cMax (grp - 1) (crd - 1) p n a
    rwa [Nat.sub_add_cancel h3] at hread

/-- `zext_32` of an image puts a zero byte above its three (30_encoding.md R71). -/
theorem imageData_eq_append (v : Image) : imageData v = 0#8 ++ v := BitVec.setWidth_eq_append (by omega)

/-- Settles O16: the response data is the addressed image's three bytes under a zero byte. -/
theorem readImageReturnsTheImage : Obligations.ReadImageReturnsTheImage := by
  refine fun s grp crd => ⟨exec_readImage_errGroup crd, exec_readImage_errCard, fun hc h1 h2 h3 h4 => ?_⟩
  rw [exec_readImage_valid hc h1 h2 h3 h4, imageData_eq_append]
  rfl

/-! ### CLEAR_ALL (42_stack_commands.md R108, R115) -/

/-- Every slot is 0 after the loops of CLEAR_ALL, whatever the number of slots a group has. -/
theorem loadImage_stackClear_slot {m : Memory} (h : m.wf) {k n g c : Nat} (hg : g < k) (hc : c < n) :
    loadImage (stackClear k n m) g c = 0 := by
  have byte : ∀ b < 3, (stackClear k n m).read (imgAddr g c b) = 0 := fun b hb => by
    rw [read_stackClear h, if_pos ⟨g, hg, by simp only [imgAddr]; omega⟩]
  rw [loadImage, byte 0 (by omega), byte 1 (by omega), byte 2 (by omega)]
  rfl

/-- Settles O13, from what the loops do to each byte. -/
theorem clearAllZeroesEveryImage : Obligations.ClearAllZeroesEveryImage :=
  fun _ hw => ⟨_, rfl, rfl, fun _ hg _ hc => loadImage_stackClear_slot hw hg hc, read_stackClear hw _ _⟩

theorem stackClear_stackClear {m : Memory} (h : m.wf) (k n : Nat) :
    stackClear k n (stackClear k n m) = stackClear k n m := by
  have hw := stackClear_wf h k n
  refine Memory.ext_read (stackClear_wf hw k n) hw fun a => ?_
  rw [read_stackClear hw]
  split
  next hslot => rw [read_stackClear h, if_pos hslot]
  next => rfl

/-- The payload of cards that are all 0 (20_memory.md R52). -/
theorem State.payload_eq_replicate {s : State} (h : ∀ g < s.groups, ∀ c < s.cards g, s.image g c = 0) :
    s.payload = List.replicate s.len 0 := by
  refine List.eq_replicate_iff.2 ⟨s.length_payload, fun b hb => ?_⟩
  obtain ⟨g, hg, hb⟩ := List.mem_flatMap.1 hb
  obtain ⟨c, hc, hb⟩ := List.mem_flatMap.1 hb
  rw [State.cardBytes, h g (List.mem_range.1 hg) c (List.mem_range.1 hc)] at hb
  simpa only [imageByte_zero, List.mem_cons, List.not_mem_nil, or_false, or_self] using hb

/-- The state after CLEAR_ALL. -/
def State.cleared (s : State) : State :=
  ({ s with img := stackClear s.cfg.gMax s.cfg.cMax s.img } : State).beginCommit 0

theorem exec_clearAll (s : State) : exec .clearAll s = .next s.cleared := rfl

theorem State.payload_cleared {s : State} (hc : s.Configured) : s.cleared.payload = List.replicate s.len 0 := by
  have hgroups := hc.groups_le
  refine State.payload_eq_replicate (s := s.cleared) fun g (hg : g < s.groups) c (hcard : c < s.cards g) => ?_
  have hcards := hc.cards_le g
  exact loadImage_stackClear_slot hc.img_wf (by omega) (by omega)

/-- Settles O22: the loops are idempotent, and CLEAR_ALL keeps the topology and so `LEN`. -/
theorem clearAllIsIdempotent : Obligations.ClearAllIsIdempotent :=
  fun s hc => ⟨_, _, exec_clearAll s, exec_clearAll _, stackClear_stackClear hc.img_wf _ _, rfl, rfl,
    State.payload_cleared hc, State.payload_cleared (exec_configured hc (exec_clearAll s))⟩

/-! ### The order of the checks, and where `S_EXEC` ends (42_stack_commands.md R106, R116) -/

theorem statusCode_eq_ok {code : Status} : statusCode code = 0 ↔ code = .ok := by
  cases code <;> decide

/-- Settles O20: an error responds with a status that is not OK, and a command that passes its checks ends as its rule
says. -/
theorem onlyCommitCommandsBeginTheProtocol : Obligations.OnlyCommitCommandsBeginTheProtocol := by
  intro i s t h
  rcases exec_next h with ⟨code, hcode, -, rfl⟩ | ⟨_, rfl, -, -, rfl⟩ | ⟨rfl, rfl⟩ | ⟨_, -, -, rfl, rfl⟩ |
    ⟨_, _, _, _, -, -, -, -, rfl, rfl⟩ | ⟨_, _, -, -, -, -, rfl, rfl⟩
  · have hstatus : statusCode code ≠ 0 := mt statusCode_eq_ok.1 hcode
    exact ⟨.inr rfl, nofun, fun e => absurd e.2 hstatus⟩
  · simp [commits]
  · simp [commits, statusCode]
  · simp [commits, statusCode]
  · simp [commits, statusCode]
  · simp [commits]

/-- Settles O18: the opcode selects the command, and what that command's cycle can end in names the check that
failed. -/
theorem checksDecideInOrder : Obligations.ChecksDecideInOrder := by
  intro s w hc
  obtain ⟨t, h⟩ := exec_defined hc (decode w)
  obtain ⟨-, -, hadd, hall, hclear, hset, hread, -⟩ := fieldsAreTheirBits w
  have hw := w.isLt
  refine ⟨t, h, ?_⟩
  dsimp only
  by_cases hres : w.toNat / 2 ^ 29 = 0 ∨ w.toNat / 2 ^ 29 = 6 ∨ w.toNat / 2 ^ 29 = 7
  · rw [if_pos hres]
    obtain ⟨-, -, -, hreserved⟩ := reservedOpcodesAnswerErrOpcode s
    rw [hreserved w hres] at h
    cases h
    rfl
  rw [if_neg hres]
  obtain hop | hop | hop | hop | hop : w.toNat / 2 ^ 29 = 1 ∨ w.toNat / 2 ^ 29 = 2 ∨ w.toNat / 2 ^ 29 = 3 ∨
      w.toNat / 2 ^ 29 = 4 ∨ w.toNat / 2 ^ 29 = 5 := by omega
  · rw [hadd hop] at h
    rw [if_neg (by omega), if_neg (by omega)]
    rcases execAddGroup_next h with ⟨hfull, rfl⟩ | ⟨hslot, hcount, rfl⟩
    · rw [if_pos ⟨hop, hfull⟩]
      rfl
    · rw [if_neg (by omega), if_pos (.inl hop)]
      exact ⟨rfl, rfl⟩
  · rw [hall hop] at h
    cases h
    rw [if_neg (by omega), if_neg (by omega), if_neg (by omega), if_neg (by omega)]
    exact ⟨rfl, rfl⟩
  · rw [hclear hop] at h
    rcases execClearGroup_next h with ⟨hg, rfl⟩ | ⟨h1, h2, -, rfl⟩
    · rw [if_pos (by omega)]
      rfl
    · rw [if_neg (by omega), if_neg (by omega), if_neg (by omega), if_neg (by omega)]
      exact ⟨rfl, rfl⟩
  · rw [hset hop] at h
    rcases execSetChannel_next h with ⟨hg, rfl⟩ | ⟨h1, h2, hcard, rfl⟩ | ⟨h1, h2, h3, h4, -, -, rfl⟩
    · rw [if_pos (by omega)]
      rfl
    · rw [if_neg (by omega), if_pos (by omega)]
      rfl
    · rw [if_neg (by omega), if_neg (by omega), if_neg (by omega), if_neg (by omega)]
      exact ⟨rfl, rfl⟩
  · rw [hread hop] at h
    rcases execReadImage_next h with ⟨hg, rfl⟩ | ⟨h1, h2, hcard, rfl⟩ | ⟨h1, h2, h3, h4, -, -, rfl⟩
    · rw [if_pos (by omega)]
      rfl
    · rw [if_neg (by omega), if_pos (by omega)]
      rfl
    · rw [if_neg (by omega), if_neg (by omega), if_neg (by omega), if_pos (.inr hop)]
      exact ⟨rfl, rfl⟩

end Sys2Proof.Machine
end

section
/-! SUPPORT. The commit family, one edge: the step as an equation for each state of the FSM, the output ports, the events
of a step and the bytes a commit sends (43_commit_fsm.md sections 1, 2, 4 and 5). -/

namespace Sys2Proof.Machine

/-! ### One cycle, state by state (43_commit_fsm.md R119 to R128) -/

/-- With `rst` low a step is the cycle of its state, one sample used up and one edge counted. -/
theorem step_of_fsmEdge {s u : State} (hr : s.nextPins.rst = false) (h : fsmEdge s.nextPins s = .next u) :
    step s = .next { u with pins := s.pins.drop 1, cycle := s.cycle + 1 } := by
  obtain ⟨-, hpins, hcycle⟩ := fsmEdge_env h
  rw [step_of_noReset hr, h, afterEdge, State.tick, hpins, hcycle, List.drop_one]

theorem step_exec {s t : State} (hs : s.state = .exec) (hr : s.nextPins.rst = false) (h : exec s.command s = .next t) :
    step s = .next { t with pins := s.pins.drop 1, cycle := s.cycle + 1 } :=
  step_of_fsmEdge hr ((fsmEdge_of_exec hs).trans h)

/-- Settles O28: `S_EXEC` runs the command that the decoder reads from `cmd_q`. -/
theorem stepRunsTheDecodedCommand : Obligations.StepRunsTheDecodedCommand := by
  intro s i hs hr
  have run : step s = afterEdge (exec (decode s.cmdQ) s) := by
    rw [step_of_noReset hr, fsmEdge_of_exec hs, State.command]
  refine ⟨run, fun hwf hq => ?_, fun t h => ?_⟩
  · rw [run, hq, decode_encode hwf]
  · rw [step_exec hs hr h, List.drop_one]

/-- Settles O29, by whether a command is offered. -/
theorem idleAcceptsTheOfferedCommand : Obligations.IdleAcceptsTheOfferedCommand := by
  intro s hs hr
  have edge : fsmEdge s.nextPins s = idleEdge s.nextPins s := by rw [fsmEdge, hs]
  exact ⟨decide_eq_true hs, fun hv => step_of_fsmEdge hr (edge.trans (if_pos hv)),
    fun hv => step_of_fsmEdge hr (edge.trans (if_neg (by simp [hv])))⟩

/-- Settles O30: a legal delay fits its counter, so it is loaded untruncated. -/
theorem unlatchDrivesEveryLineLow : Obligations.UnlatchDrivesEveryLineLow := by
  intro s hs hr hl
  have edge : fsmEdge s.nextPins s = unlatchEdge s := by rw [fsmEdge, hs]
  rw [unlatchEdge, (legal_truncate hl).1] at edge
  exact step_of_fsmEdge hr edge

theorem step_xfer_empty {s : State} (hs : s.state = .xfer) (hr : s.nextPins.rst = false) (hlen : s.len = 0) :
    step s = .next { s.ticks 1 with state := .drain } := by
  have edge : fsmEdge s.nextPins s = xferEdge s.nextPins s := by rw [fsmEdge, hs]
  exact step_of_fsmEdge hr (edge.trans (if_pos hlen))

theorem step_xfer_waiting {s : State} (hs : s.state = .xfer) (hr : s.nextPins.rst = false) (hlt : s.ptr < s.len)
    (hy : s.nextPins.txReady = false) : step s = .next (s.ticks 1) := by
  obtain ⟨b, hb, -⟩ := s.memRead_of_lt hlt
  have edge : fsmEdge s.nextPins s = .next s := by
    simp [fsmEdge, hs, xferEdge, show s.len ≠ 0 by omega, hb, hy]
  exact step_of_fsmEdge hr edge

theorem State.lt_len_of_getElem? {s : State} {i : Nat} {b : Byte} (h : s.payload[i]? = some b) : i < s.len := by
  rw [← s.length_payload]
  exact (List.getElem?_eq_some_iff.1 h).1

/-- Settles O31: no byte, a byte that waits, the last byte, or one with more to come. -/
theorem transferTakesTheOfferedByte : Obligations.TransferTakesTheOfferedByte := by
  intro s hs hr _ hw
  refine ⟨step_xfer_empty hs hr, fun b hb => ⟨step_xfer_waiting hs hr (State.lt_len_of_getElem? hb),
    fun hy hlast => ?_, fun hy hmore => ?_⟩⟩
  · rw [step_xfer_taken hs hr hb hy hw, if_pos hlast, if_pos hlast]
    rfl
  · rw [step_xfer_taken hs hr hb hy hw, if_neg hmore, if_neg hmore, ← hs]
    rfl

/-- Settles O32, by whether the transport is idle. -/
theorem drainWaitsForIdle : Obligations.DrainWaitsForIdle := by
  intro s hs hr
  have edge : fsmEdge s.nextPins s = drainEdge s.nextPins s := by rw [fsmEdge, hs]
  exact ⟨fun hi => step_of_fsmEdge hr (edge.trans (if_pos hi)),
    fun hi => step_of_fsmEdge hr (edge.trans (if_neg (by simp [hi])))⟩

theorem step_latch {s : State} (hs : s.state = .latch) (hr : s.nextPins.rst = false) (hl : s.cfg.Legal) :
    step s = .next { s.ticks 1 with
      latchQ := s.registeredLatch, cnt := s.cfg.dHighCycles, state := .waitHigh
      trace := s.trace ++ [(s.cycle, .latchRegistered true)] } := by
  have edge : fsmEdge s.nextPins s = latchEdge s := by rw [fsmEdge, hs]
  rw [latchEdge, (legal_truncate hl).2] at edge
  exact step_of_fsmEdge hr edge

theorem State.getElem?_registeredLatch (s : State) {g : Nat} (hg : g < s.cfg.gMax) :
    s.registeredLatch[g]? = some (decide (g < s.groups)) := by
  simp [State.registeredLatch, hg]

/-- Settles O33: the lines take the levels of `registeredLatch`. -/
theorem latchDrivesRegisteredLinesHigh : Obligations.LatchDrivesRegisteredLinesHigh :=
  fun s hs hr hl => ⟨_, step_latch hs hr hl, rfl, s.length_registeredLatch, fun _ hg => s.getElem?_registeredLatch hg⟩

theorem statusCode_verifyStatus (faultOk : Bool) : statusCode (verifyStatus faultOk) = if faultOk then 0 else 1 := by
  cases faultOk <;> rfl

/-- Settles O34: the status is the code of the verdict on the one sample. -/
theorem verifySamplesTheFaultLineOnce : Obligations.VerifySamplesTheFaultLineOnce := by
  intro s hs hr
  have edge : fsmEdge s.nextPins s = verifyEdge s.nextPins s := by rw [fsmEdge, hs]
  rw [verifyEdge, statusCode_verifyStatus] at edge
  exact step_of_fsmEdge hr edge

/-- Settles O35, by whether the response is taken. -/
theorem responseIsHeldUntilTaken : Obligations.ResponseIsHeldUntilTaken := by
  intro s hs hr
  have edge : fsmEdge s.nextPins s = respEdge s.nextPins s := by rw [fsmEdge, hs]
  exact ⟨⟨decide_eq_true hs, rfl, rfl⟩, fun hy => step_of_fsmEdge hr (edge.trans (if_pos hy)),
    fun hy => step_of_fsmEdge hr (edge.trans (if_neg (by simp [hy])))⟩

/-! ### The output ports (43_commit_fsm.md R129, R130) -/

theorem State.txValid_iff {s : State} : s.txValid = true ↔ s.state = .xfer ∧ 0 < s.len := by
  simp [State.txValid, Nat.pos_iff_ne_zero]

theorem State.txLast_iff {s : State} (h : s.txValid = true) : s.txLast = true ↔ s.ptr + 1 = s.len := by
  have hlen := (State.txValid_iff.1 h).2
  simp only [State.txLast, h, Bool.true_and, decide_eq_true_eq]
  omega

theorem State.txData_of_getElem? {s : State} {b : Byte} (h : s.txValid = true) (hb : s.payload[s.ptr]? = some b) :
    s.txData = b := by
  rw [State.txData, if_pos h, s.memRead_eq_some.2 hb, Option.getD_some]

/-- Settles O39: the transfer ports are those of the byte offered, and 0 where none is. -/
theorem outputsByState : Obligations.OutputsByState := by
  intro s
  refine ⟨⟨rfl, rfl, rfl⟩, decide_eq_true_iff, decide_eq_true_iff, State.txValid_iff, fun hno => ?_, fun hyes b hb => ?_⟩
  · have hv : s.txValid = false := hno
    exact ⟨by simp [outputs, State.txData, hv], by simp [outputs, State.txLast, hv]⟩
  · exact ⟨State.txData_of_getElem? hyes hb, State.txLast_iff hyes⟩

/-- Settles O44: a byte that is not taken leaves the block where it was. -/
theorem offerIsStableUntilTaken : Obligations.OfferIsStableUntilTaken := by
  intro s hq hv hr hy
  obtain ⟨hs, hlen⟩ := State.txValid_iff.1 hv
  obtain ⟨-, -, -, -, -, hxfer⟩ := hq
  have hlt : s.ptr < s.len := by
    have := hxfer hs
    omega
  exact ⟨s.ticks 1, step_xfer_waiting hs hr hlt hy, hv, rfl, rfl⟩

/-! ### The events of one step (43_commit_fsm.md R148) -/

/-- Settles O41: each cycle of the FSM records at most the one event of its state. -/
theorem eventsByState : Obligations.EventsByState := by
  intro s t h hr
  rcases step_next h with ⟨hr', -⟩ | ⟨-, u, hu, rfl⟩
  · exact absurd hr' (by simp [hr])
  rw [State.tick_trace]
  rcases fsmEdge_next hu with ⟨hst, hv, rfl⟩ | ⟨hst, hv, rfl⟩ | ⟨hst, he⟩ | ⟨hst, rfl⟩ | ⟨hst, -, rfl⟩ |
    ⟨hst, -, rfl⟩ | ⟨hst, hlen, rfl⟩ | ⟨b, hst, -, hb, hy, -, rfl⟩ | ⟨b, hst, -, hb, hy, -, rfl⟩ |
    ⟨b, hst, -, -, hy, rfl⟩ | ⟨hst, hi, rfl⟩ | ⟨hst, hi, rfl⟩ | ⟨hst, rfl⟩ | ⟨hst, -, rfl⟩ | ⟨hst, -, rfl⟩ |
    ⟨hst, rfl⟩ | ⟨hst, hy, rfl⟩ | ⟨hst, hy, rfl⟩
  · simp [hst, hv]
  · simp [hst, hv]
  · obtain ⟨-, -, -, -, -, -, -, htrace⟩ := exec_frame he
    simp [hst, htrace]
  · simp [hst]
  · simp [hst]
  · simp [hst]
  · have hnone : s.payload[s.ptr]? = none := List.getElem?_eq_none (by rw [s.length_payload, hlen]; omega)
    simp [hst, hnone]
  · simp [hst, hy, s.memRead_eq_some.1 hb]
  · simp [hst, hy, s.memRead_eq_some.1 hb]
  · simp [hst, hy]
  · simp [hst, hi]
  · simp [hst, hi]
  · simp [hst]
  · simp [hst]
  · simp [hst]
  · simp [hst]
  · simp [hst, hy]
  · simp [hst, hy]

/-! ### The bytes a commit sends (43_commit_fsm.md R130, R143) -/

theorem sentBytes_concat (trace : List (Nat × Event)) (e : Nat × Event) :
    sentBytes (trace ++ [e]) = noteByte (sentBytes trace) e := by
  simp [sentBytes]

/-- A byte taken at `ptr` after the first `ptr` bytes gives the first `ptr + 1`. -/
theorem sentBytes_byte {s : State} {b : Byte} (hsent : sentBytes s.trace = (s.payload.take s.ptr).zipIdx)
    (hb : s.payload[s.ptr]? = some b) :
    sentBytes (s.trace ++ [(s.cycle, .byte s.ptr b)]) = (s.payload.take (s.ptr + 1)).zipIdx := by
  have hlt := State.lt_len_of_getElem? hb
  have hlength : (s.payload.take s.ptr).length = s.ptr := by
    rw [List.length_take, s.length_payload]
    omega
  rw [sentBytes_concat, noteByte, hsent, List.take_add_one, hb, List.zipIdx_append, hlength]
  simp

/-- Outside the commit, and in `S_UNLATCH` before the lines fall, nothing is asked of the bytes sent. -/
theorem State.TransferInv.of_outside {u : State}
    (h : u.state = .idle ∨ u.state = .exec ∨ u.state = .unlatch ∨ u.state = .resp) : u.TransferInv := by
  rcases h with h | h | h | h <;> simp [State.TransferInv, h]

/-- From the end of the transfer to the sample the whole payload has been sent. -/
theorem State.TransferInv.of_sent {u : State} (hs : u.state = .drain ∨ u.state = .latch ∨ u.state = .waitHigh ∨
    u.state = .verify) (h : sentBytes u.trace = u.payload.zipIdx) : u.TransferInv :=
  ⟨fun e => by simp [e] at hs, fun e => by simp [e] at hs, fun _ => h⟩

/-- `S_UNLATCH` forgets the bytes of earlier commits, `S_XFER` notes the byte at `ptr` and moves on, and no other cycle
of a commit takes a byte or writes the payload. -/
theorem fsmEdge_transferInv {p : Pins} {s u : State} (hc : s.Configured) (ht : s.TransferInv)
    (h : fsmEdge p s = .next u) : u.TransferInv := by
  have hlen := hc.len_lt
  obtain ⟨hbegin, hxfer, hdone⟩ := id ht
  rcases fsmEdge_next h with ⟨-, -, rfl⟩ | ⟨-, -, rfl⟩ | ⟨-, he⟩ | ⟨-, rfl⟩ | ⟨hs, -, rfl⟩ | ⟨-, -, rfl⟩ |
    ⟨hs, hl, rfl⟩ | ⟨b, hs, hl, hb, -, hlast, rfl⟩ | ⟨b, hs, hl, hb, -, hmore, rfl⟩ | ⟨_, -, -, -, -, rfl⟩ |
    ⟨hs, -, rfl⟩ | ⟨-, -, rfl⟩ | ⟨hs, rfl⟩ | ⟨hs, -, rfl⟩ | ⟨-, -, rfl⟩ | ⟨-, rfl⟩ | ⟨-, -, rfl⟩ | ⟨-, -, rfl⟩
  · exact .of_outside (by simp)
  · exact ht
  · exact .of_outside (by rcases exec_state he with e | e <;> simp [e])
  · exact ⟨fun _ => sentBytes_concat _ _, by simp, by simp⟩
  · exact ⟨by simp, fun _ => hbegin hs, by simp⟩
  · exact ht
  · have hnil : s.payload = [] := List.length_eq_zero_iff.1 (s.length_payload.trans hl)
    have hsent := hxfer hs
    rw [hnil, List.take_nil] at hsent
    exact .of_sent (by simp) (hsent.trans (congrArg List.zipIdx hnil.symm))
  · have hsent := sentBytes_byte (hxfer hs) (s.memRead_eq_some.1 hb)
    rw [List.take_of_length_le (by rw [s.length_payload]; omega)] at hsent
    exact .of_sent (by simp) hsent
  · have hnext := State.lt_len_of_getElem? (s.memRead_eq_some.1 hb)
    rw [increment_eq (by omega)]
    exact ⟨by simp [hs], fun _ => sentBytes_byte (hxfer hs) (s.memRead_eq_some.1 hb), by simp [hs]⟩
  · exact ht
  · exact .of_sent (by simp) ((sentBytes_concat _ _).trans (hdone (by simp [hs])))
  · exact ht
  · exact .of_sent (by simp) ((sentBytes_concat _ _).trans (hdone (by simp [hs])))
  · exact .of_sent (by simp) (hdone (by simp [hs]))
  · exact ht
  · exact .of_outside (by simp)
  · exact .of_outside (by simp)
  · exact ht

/-- Settles O53: a reset edge ends every commit, and each cycle keeps the bytes sent in step with `ptr`. -/
theorem everyStepKeepsTheTransferInvariant : Obligations.EveryStepKeepsTheTransferInvariant := by
  rintro s t ⟨hc, -⟩ ht h
  rcases step_next h with ⟨-, rfl⟩ | ⟨-, u, hu, rfl⟩
  · exact .of_outside (by simp)
  · exact (fsmEdge_transferInv hc ht hu : u.TransferInv)

end Sys2Proof.Machine
end

section
/-! SUPPORT. The commit family, runs of many edges: the waits, the delays and whole commands (43_commit_fsm.md sections 3
and 5). -/

namespace Sys2Proof.Machine

/-! ### Edges that pass, and samples on the way -/

theorem State.ticks_ticks (s : State) (m n : Nat) : (s.ticks m).ticks n = s.ticks (m + n) := by
  simp [State.ticks, Nat.add_assoc]

theorem State.nextPins_ticks (s : State) (k : Nat) : (s.ticks k).nextPins = s.pinsAt k := by
  rw [← State.pinsAt_zero]
  simp [State.pinsAt, State.ticks]

/-- A run of steps that change nothing. -/
theorem runSteps_ticks {n : Nat} {s : State} (h : ∀ k < n, step (s.ticks k) = .next ((s.ticks k).ticks 1)) :
    runSteps n s = .next (s.ticks n) := by
  induction n with
  | zero => rw [s.ticks_zero, runSteps]
  | succ n ih =>
    rw [runSteps_add (ih fun k hk => h k (by omega)), runSteps_succ (h n (by omega)), State.ticks_ticks, runSteps]

/-- Settles O45: each edge of the wait leaves the block where it was, so the next one waits as well. -/
theorem waitsAreUnbounded : Obligations.WaitsAreUnbounded := by
  intro n s hr hwait
  refine runSteps_ticks fun k hk => ?_
  have hrst : (s.ticks k).nextPins.rst = false := by rw [s.nextPins_ticks]; exact hr k hk
  rcases hwait with ⟨hs, hlt, hy⟩ | ⟨hs, hy⟩ | ⟨hs, hy⟩
  · exact step_xfer_waiting (s := s.ticks k) hs hrst hlt (by rw [s.nextPins_ticks]; exact hy k hk)
  · exact (drainWaitsForIdle (s.ticks k) hs hrst).2 (by rw [s.nextPins_ticks]; exact hy k hk)
  · exact (responseIsHeldUntilTaken (s.ticks k) hs hrst).2.2 (by rw [s.nextPins_ticks]; exact hy k hk)

theorem runSteps_trans {s t u : State} {m n : Nat} (h : runSteps m s = .next t) (h' : runSteps n t = .next u) :
    runSteps (m + n) s = .next u := (runSteps_add h).trans h'

theorem runSteps_one {s t : State} (h : step s = .next t) : runSteps 1 s = .next t := runSteps_succ h

theorem State.NoReset.mono {s : State} {m n : Nat} (h : s.NoReset n) (hmn : m ≤ n) : s.NoReset m :=
  fun k hk => h k (by omega)

/-- After `k` edges the coming sample is the one that was `k` ahead. -/
theorem runSteps_nextPins {s t : State} {k : Nat} (h : runSteps k s = .next t) : t.nextPins = s.pinsAt k := by
  rw [← State.pinsAt_zero, runSteps_pinsAt h, Nat.zero_add]

theorem State.NoReset.after {s t : State} {k n : Nat} (h : s.NoReset n) (e : runSteps k s = .next t)
    (hk : k < n := by omega) : t.nextPins.rst = false := by
  rw [runSteps_nextPins e]
  exact h k hk

/-- After `k` of `k + n` edges without reset, `n` are left. -/
theorem State.NoReset.drop {s t : State} {k n : Nat} (h : s.NoReset (k + n)) (e : runSteps k s = .next t) :
    t.NoReset n := fun i hi => by
  rw [runSteps_pinsAt e]
  exact h _ (by omega)

/-- A run uses up as many samples and counts as many edges as it has steps. -/
theorem runSteps_env {n : Nat} {s t : State} (h : runSteps n s = .next t) :
    t.pins = s.pins.drop n ∧ t.cycle = s.cycle + n := by
  induction n generalizing s with
  | zero => cases h; simp
  | succ n ih =>
    simp only [runSteps] at h
    split at h
    next u hu =>
      obtain ⟨-, hpins, hcycle⟩ := step_env hu
      obtain ⟨ihpins, ihcycle⟩ := ih h
      exact ⟨by rw [ihpins, hpins, List.drop_tail], by omega⟩
    next => cases h
    next => cases h

/-- So its end is known from the registers and the trace. -/
theorem runSteps_congr {s t u : State} {m n : Nat} (h : runSteps m s = .next t) (hmn : m = n)
    (hregs : u = { t with pins := s.pins.drop n, cycle := s.cycle + n, trace := u.trace }) (htrace : t.trace = u.trace) :
    runSteps n s = .next u := by
  subst hmn
  obtain ⟨hpins, hcycle⟩ := runSteps_env h
  rw [h, hregs, ← htrace, ← hpins, ← hcycle]

/-! ### The delays (43_commit_fsm.md R122, R126, R135, R136) -/

/-- Settles O47: the delay loaded at the end of `S_UNLATCH` is counted down to 1. -/
theorem lowDelayIsExact : Obligations.LowDelayIsExact := by
  intro s hl hs hr
  obtain ⟨⟨hpos, hfits, hmin⟩, -⟩ := legal_delays hl
  have hstep := unlatchDrivesEveryLineLow s hs hr.next hl
  obtain ⟨hcount, hlast⟩ := runSteps_waitLow (s.cfg.dLowCycles - 1) (s := { s.ticks 1 with
      latchQ := List.replicate s.cfg.gMax false, cnt := s.cfg.dLowCycles, state := .waitLow
      trace := s.trace ++ [(s.cycle, .latchAll false)] }) rfl (Nat.sub_add_cancel hpos).symm
    (by rw [Nat.sub_add_cancel hpos]; exact hfits) (by rw [Nat.sub_add_cancel hpos]; exact hr.step hstep)
  rw [Nat.sub_add_cancel hpos] at hlast
  refine ⟨?_, fun k hk => ⟨_, (runSteps_succ hstep).trans (hcount k (by omega)), rfl, rfl⟩, ?_⟩
  · unfold Params.lowMinimum at hmin
    omega
  · exact runSteps_congr ((runSteps_succ hstep).trans hlast) rfl rfl rfl

/-- Settles O48: the delay loaded at the end of `S_LATCH` is counted down to 1, and `S_VERIFY` follows. -/
theorem highDelayThenOneSample : Obligations.HighDelayThenOneSample := by
  intro s hl hs hr
  obtain ⟨-, hpos, hfits, hmin⟩ := legal_delays hl
  have hstep := step_latch hs hr.next hl
  obtain ⟨hcount, hlast⟩ := runSteps_waitHigh (s.cfg.dHighCycles - 1) (s := { s.ticks 1 with
      latchQ := s.registeredLatch, cnt := s.cfg.dHighCycles, state := .waitHigh
      trace := s.trace ++ [(s.cycle, .latchRegistered true)] }) rfl (Nat.sub_add_cancel hpos).symm
    (by rw [Nat.sub_add_cancel hpos]; exact hfits)
    (by rw [Nat.sub_add_cancel hpos]; exact (hr.step hstep).mono (by omega))
  rw [Nat.sub_add_cancel hpos] at hlast
  have hdelay := (runSteps_succ hstep).trans hlast
  refine ⟨?_, fun k hk => ⟨_, (runSteps_succ hstep).trans (hcount k (by omega)), rfl⟩, ?_⟩
  · unfold Params.highMinimum at hmin
    omega
  · have hverify := verifySamplesTheFaultLineOnce _ rfl (hr.after hdelay)
    rw [runSteps_nextPins hdelay] at hverify
    refine runSteps_congr (runSteps_trans hdelay (runSteps_one hverify)) rfl rfl ?_
    simp [State.ticks]
    omega

/-! ### From the offer of a command to the end of `S_EXEC` (43_commit_fsm.md R138, R146) -/

/-- The state in which `S_EXEC` finds the command `w` accepted at the coming edge of `s`. -/
def State.accepted (s : State) (w : Word) : State :=
  { s.ticks 1 with cmdQ := w, state := .exec, trace := s.trace ++ [(s.cycle, .accept w)] }

/-- An offered command is accepted at one edge and executed at the next. -/
theorem runSteps_accept_exec {s e : State} {w : Word} (hs : s.state = .idle) (hr : s.NoReset 2)
    (hv : (s.pinsAt 0).cmdValid = true) (hw : (s.pinsAt 0).cmdWord = w)
    (he : exec (decode w) (s.accepted w) = .next e) :
    runSteps 2 s = .next { e with pins := s.pins.drop 2, cycle := s.cycle + 2 } := by
  rw [s.pinsAt_zero] at hv hw
  have haccept : step s = .next (s.accepted w) := by
    rw [(idleAcceptsTheOfferedCommand s hs hr.next).2.1 hv, hw, State.accepted]
  have hexec := step_exec (s := s.accepted w) rfl (hr.step haccept).next he
  exact runSteps_congr (runSteps_trans (runSteps_one haccept) (runSteps_one hexec)) rfl rfl rfl

/-- Settles O49: `S_EXEC` ends in `S_RESP`, where the response is taken. -/
theorem nonCommitCommandTakesThreeEdges : Obligations.NonCommitCommandTakesThreeEdges := by
  intro s e w hs hr hv hw hy he hno
  obtain ⟨-, -, -, -, hlatch, -, -, (htrace : e.trace = s.trace ++ [(s.cycle, Event.accept w)])⟩ := exec_frame he
  have hresp : e.state = .resp := by
    obtain ⟨hor, hcommit⟩ := onlyCommitCommandsBeginTheProtocol _ _ _ he
    refine hor.resolve_left fun h => ?_
    obtain ⟨hc, hok⟩ := hcommit.1 h
    rcases hno with h | h
    · simp [h] at hc
    · exact h hok
  have hrun := runSteps_accept_exec hs (hr.mono (by omega)) hv hw he
  have htake := (responseIsHeldUntilTaken { e with pins := s.pins.drop 2, cycle := s.cycle + 2 } hresp
    (hr.after hrun)).2.1 (by rw [runSteps_nextPins hrun]; exact hy)
  refine ⟨runSteps_congr (runSteps_trans hrun (runSteps_one htake)) rfl rfl ?_, hlatch⟩
  simp [htrace]

/-! ### The transfer and the whole commit with an environment that never stalls (43_commit_fsm.md R138, R147, R148) -/

/-- The byte events of a transfer whose first byte is taken at edge `n`. -/
def byteEvents (n : Nat) (payload : List Byte) : List (Nat × Event) :=
  payload.zipIdx.map fun x => (n + x.2, Event.byte x.2 x.1)

/-- The whole transfer: one edge a byte, and one edge where there is none. -/
theorem runSteps_transfer {s : State} {m : Nat} (hs : s.state = .xfer) (hp : s.ptr = 0) (hw : s.len < 2 ^ s.cfg.ptrW)
    (hm : m = max s.len 1) (hr : s.NoReset m) (hy : ∀ k < m, (s.pinsAt k).txReady = true) :
    runSteps m s = .next { s.ticks m with
      ptr := s.len - 1, state := .drain, trace := s.trace ++ byteEvents s.cycle s.payload } := by
  rcases Nat.eq_zero_or_pos s.len with hlen | hlen
  · have hnil : s.payload = [] := List.length_eq_zero_iff.1 (s.length_payload.trans hlen)
    obtain rfl : m = 1 := by omega
    rw [runSteps_one (step_xfer_empty hs hr.next hlen), hnil, hlen, Nat.zero_sub, ← hp]
    simp [byteEvents, State.ticks]
  · obtain ⟨j, rfl⟩ : ∃ j, m = j + 1 := ⟨m - 1, by omega⟩
    rw [runSteps_xfer j hs (by omega) hw hr hy, hp]
    rfl

/-- From `S_UNLATCH` to `S_DRAIN`: the low delay and the transfer. -/
theorem runSteps_unlatch_to_drain {s : State} {m : Nat} (hl : s.cfg.Legal) (hw : s.len < 2 ^ s.cfg.ptrW)
    (hs : s.state = .unlatch) (hm : m = max s.len 1) (hr : s.NoReset (s.cfg.dLowCycles + 1 + m))
    (hy : ∀ k < s.cfg.dLowCycles + 1 + m, (s.pinsAt k).txReady = true) :
    runSteps (s.cfg.dLowCycles + 1 + m) s = .next { s.ticks (s.cfg.dLowCycles + 1 + m) with
      latchQ := List.replicate s.cfg.gMax false, cnt := 1, ptr := s.len - 1, state := .drain
      trace := s.trace ++ (s.cycle, .latchAll false) :: byteEvents (s.cycle + s.cfg.dLowCycles + 1) s.payload } := by
  obtain ⟨-, -, hlow⟩ := lowDelayIsExact s hl hs (hr.mono (by omega))
  have hsend := runSteps_transfer (s := { s.ticks (s.cfg.dLowCycles + 1) with
      latchQ := List.replicate s.cfg.gMax false, cnt := 1, ptr := 0, state := .xfer
      trace := s.trace ++ [(s.cycle, .latchAll false)] }) rfl rfl hw hm (hr.drop hlow)
    fun k hk => by rw [runSteps_pinsAt hlow]; exact hy _ (by omega)
  exact runSteps_congr (runSteps_trans hlow hsend) rfl rfl (List.append_assoc _ _ _)

/-- From `S_DRAIN` to `S_RESP`: one edge, the high delay and the sample `v`. -/
theorem runSteps_drain_to_resp {s : State} {v : Bool} (hl : s.cfg.Legal) (hs : s.state = .drain)
    (hr : s.NoReset (s.cfg.dHighCycles + 3)) (hi : (s.pinsAt 0).txIdle = true)
    (hv : (s.pinsAt (s.cfg.dHighCycles + 2)).faultOk = v) :
    runSteps (s.cfg.dHighCycles + 3) s = .next { s.ticks (s.cfg.dHighCycles + 3) with
      latchQ := s.registeredLatch, cnt := 1, state := .resp, statusQ := if v then 0 else 1
      trace := s.trace ++ [(s.cycle, .txIdle), (s.cycle + 1, .latchRegistered true),
        (s.cycle + s.cfg.dHighCycles + 2, .faultSample v)] } := by
  subst hv
  have hidle := (drainWaitsForIdle s hs hr.next).1 (by rw [← s.pinsAt_zero]; exact hi)
  obtain ⟨-, -, hhigh⟩ := highDelayThenOneSample { s.ticks 1 with
    state := .latch, trace := s.trace ++ [(s.cycle, .txIdle)] } hl rfl (hr.step hidle)
  rw [step_pinsAt hidle] at hhigh
  refine runSteps_congr ((runSteps_succ hidle).trans hhigh) rfl rfl ?_
  simp [State.ticks]
  omega

/-- The events of 43_commit_fsm.md R148 from edge `n`, where the lines fall, to the fault sample `v`, with `m` edges of
`S_XFER` and an environment that never stalls. -/
def commitEvents (c : Params) (n m : Nat) (payload : List Byte) (v : Bool) : List (Nat × Event) :=
  (n, .latchAll false) :: byteEvents (n + c.dLowCycles + 1) payload ++
    [(n + c.dLowCycles + m + 1, .txIdle), (n + c.dLowCycles + m + 2, .latchRegistered true),
      (n + c.dLowCycles + c.dHighCycles + m + 3, .faultSample v)]

/-- From `S_UNLATCH` to `S_RESP`, the fault line sampled as `v` at the last edge. -/
theorem runSteps_commit {s : State} {m n : Nat} {v : Bool} (hl : s.cfg.Legal) (hw : s.len < 2 ^ s.cfg.ptrW)
    (hs : s.state = .unlatch) (hm : m = max s.len 1) (hn : n = s.cfg.dLowCycles + s.cfg.dHighCycles + m + 3)
    (hr : s.NoReset (n + 1)) (hy : ∀ k ≤ n, (s.pinsAt k).txReady = true ∧ (s.pinsAt k).txIdle = true)
    (hv : (s.pinsAt n).faultOk = v) :
    runSteps (n + 1) s = .next { s.ticks (n + 1) with
      latchQ := s.registeredLatch, cnt := 1, ptr := s.len - 1, state := .resp, statusQ := if v then 0 else 1
      trace := s.trace ++ commitEvents s.cfg s.cycle m s.payload v } := by
  have hsent := runSteps_unlatch_to_drain hl hw hs hm (hr.mono (by omega)) fun k hk => (hy k (by omega)).1
  have hsample : s.cfg.dHighCycles + 2 + (s.cfg.dLowCycles + 1 + m) = n := by omega
  have hrest := runSteps_drain_to_resp (v := v) (s := { s.ticks (s.cfg.dLowCycles + 1 + m) with
      latchQ := List.replicate s.cfg.gMax false, cnt := 1, ptr := s.len - 1, state := .drain
      trace := s.trace ++ (s.cycle, .latchAll false) :: byteEvents (s.cycle + s.cfg.dLowCycles + 1) s.payload }) hl rfl
    (State.NoReset.drop (hr.mono (m := s.cfg.dLowCycles + 1 + m + (s.cfg.dHighCycles + 3)) (by omega)) hsent)
    (by rw [runSteps_pinsAt hsent]; exact (hy _ (by omega)).2)
    (by rw [runSteps_pinsAt hsent, ← hv, ← hsample]; rfl)
  have hedges : s.cfg.dLowCycles + 1 + m + (s.cfg.dHighCycles + 3) = n + 1 := by omega
  refine runSteps_congr (runSteps_trans hsent hrest) hedges rfl ?_
  simp [State.ticks, commitEvents]
  omega

/-- Settles O50: acceptance, `S_EXEC`, the commit, and the response taken at once. -/
theorem commitCommandRunsTheProtocol : Obligations.CommitCommandRunsTheProtocol := by
  rintro s e w n m ⟨hconf, -⟩ hs hv hw he hcommit hok hm rfl hr hy
  obtain ⟨(hcfg : e.cfg = s.cfg), -, -, -, -, -, -, (htrace : e.trace = s.trace ++ [(s.cycle, Event.accept w)])⟩ :=
    exec_frame he
  have hunlatch : e.state = .unlatch := (onlyCommitCommandsBeginTheProtocol _ _ _ he).2.2 ⟨hcommit, hok⟩
  have hconf' : e.Configured := exec_configured (s := s.accepted w) hconf he
  have hstart := runSteps_accept_exec hs (hr.mono (by omega)) hv hw he
  have hcommitted := runSteps_commit (s := { e with pins := s.pins.drop 2, cycle := s.cycle + 2 })
    (n := s.cfg.dLowCycles + s.cfg.dHighCycles + m + 3) hconf'.1 hconf'.len_lt hunlatch hm (by rw [← hcfg])
    (State.NoReset.drop (hr.mono (by omega)) hstart)
    (fun k hk => by
      rw [runSteps_pinsAt hstart]
      obtain ⟨hready, hidle, -⟩ := hy (k + 2) (by omega)
      exact ⟨hready, hidle⟩)
    (congrArg Pins.faultOk (runSteps_pinsAt hstart _))
  have hrun := runSteps_trans hstart hcommitted
  have htake := (responseIsHeldUntilTaken _ rfl (hr.after hrun)).2.1
    (by rw [runSteps_nextPins hrun]; exact (hy _ (by omega)).2.2)
  refine runSteps_congr (runSteps_trans hrun (runSteps_one htake)) (by omega) rfl ?_
  show e.trace ++ commitEvents e.cfg (s.cycle + 2) m e.payload _ ++ [(_, .respond _ e.dataQ)] = _
  have hsample : s.cfg.dLowCycles + s.cfg.dHighCycles + m + 6 - 1 = s.cfg.dLowCycles + s.cfg.dHighCycles + m + 5 := rfl
  have hedge : s.cycle + (s.cfg.dLowCycles + s.cfg.dHighCycles + m + 6) - 1 =
      s.cycle + (s.cfg.dLowCycles + s.cfg.dHighCycles + m + 5) := rfl
  rw [htrace, hcfg, hsample, hedge]
  simp [State.ticks, commitEvents, byteEvents, Nat.add_assoc, Nat.add_comm, Nat.add_left_comm]

end Sys2Proof.Machine
end

section
/-! SUPPORT. The error family: an error status names one of the four failed checks, and `raise Error` writes its response
alone (60_exceptions.md). -/

namespace Sys2Proof.Machine

theorem statusCode_error {code : Status} (hok : code ≠ .ok) (hfault : code ≠ .faultSeen) :
    statusCode code = 2 ∨ statusCode code = 3 ∨ statusCode code = 4 ∨ statusCode code = 5 := by
  cases code with
  | ok => exact absurd rfl hok
  | faultSeen => exact absurd rfl hfault
  | errOpcode | errGroup | errCard | errCapacity => decide

/-- A command ends `S_EXEC` with OK or as `raise Error` of one of the four error codes (60_exceptions.md R149). -/
theorem exec_ok_or_error {i : Instr} {s t : State} (h : exec i s = .next t) :
    t.statusQ = 0 ∨ ∃ code, code ≠ .ok ∧ code ≠ .faultSeen ∧ t = s.errorResponse code := by
  rcases exec_next h with herr | ⟨_, -, -, -, rfl⟩ | ⟨-, rfl⟩ | ⟨_, -, -, -, rfl⟩ |
    ⟨_, _, _, _, -, -, -, -, -, rfl⟩ | ⟨_, _, -, -, -, -, -, rfl⟩
  · exact .inr herr
  all_goals exact .inl rfl

/-- Settles O19: every command that passes its checks answers OK, so a status other than OK is that of `raise Error`. -/
theorem errorsHaveNoOtherEffect : Obligations.ErrorsHaveNoOtherEffect := by
  intro i s t h hstatus
  obtain hok | ⟨code, hok, hfault, rfl⟩ := exec_ok_or_error h
  · exact absurd hok hstatus
  · exact ⟨statusCode_error hok hfault, rfl⟩

end Sys2Proof.Machine
end

section
/-! SUPPORT. The reset and hazard family: the outputs after a reset edge, the commands before the first ADD_GROUP, and a
read after a write (70_reset_and_hazards.md). -/

namespace Sys2Proof.Machine

/-! ### A read after a write (70_reset_and_hazards.md R169) -/

/-- Settles O24: SET_CHANNEL keeps the configuration, so READ_IMAGE passes its checks and reads what `group_set`
left. -/
theorem readAfterSetReturnsTheNewImage : Obligations.ReadAfterSetReturnsTheNewImage := by
  intro s grp crd crd' p n hc h1 h2 h3 h4 h5 h6
  have hset := exec_setChannel_valid p n hc h1 h2 h3 h4
  refine ⟨_, _, hset, exec_readImage_valid (exec_configured hc hset) h1 h2 h5 h6, rfl, congrArg imageData ?_⟩
  have hcards := hc.cards_le (grp - 1)
  have hmax := hc.max_le
  have himage := loadImage_groupSet_group hc.img_wf (n := s.cfg.cMax) (c := crd - 1) (c' := crd' - 1) (by omega)
    (by omega) (by omega) (grp - 1) p n
  have hcard : crd' - 1 = crd - 1 ↔ crd' = crd := by omega
  exact himage.trans (if_congr hcard rfl rfl)

/-! ### The outputs after reset (70_reset_and_hazards.md R162) -/

/-- In `S_IDLE` the block is ready for a command and offers neither a response nor a byte (43_commit_fsm.md R129). -/
theorem outputs_of_idle {s : State} (hs : s.state = .idle) :
    outputs s = { cmdReady := true, rspValid := false, rspStatus := s.statusQ, rspData := s.dataQ, txValid := false
                  txData := 0x00, txLast := false, latchO := s.latchQ } := by
  have hv : s.txValid = false := by simp [State.txValid, hs]
  simp [outputs, State.txData, State.txLast, hs, hv]

/-- Settles O37: a reset edge leads to `S_IDLE` with the response registers and the latch bits 0. -/
theorem outputsAfterReset : Obligations.OutputsAfterReset :=
  fun _ hr => ⟨_, step_of_reset hr, rfl, outputs_of_idle rfl⟩

/-! ### The commands before the first ADD_GROUP (70_reset_and_hazards.md R166) -/

theorem State.payload_of_groups_zero {s : State} (h : s.groups = 0) : s.payload = [] := by
  rw [State.payload, h]
  rfl

theorem State.registeredLatch_of_groups_zero {s : State} (h : s.groups = 0) :
    s.registeredLatch = List.replicate s.cfg.gMax false := by
  simp [State.registeredLatch, h]

/-- CLEAR_ALL leaves an empty image file as it is. -/
theorem exec_clearAll_of_img_nil {s : State} (h : s.img = []) : exec .clearAll s = .next (s.beginCommit 0) := by
  rw [exec_clearAll, State.cleared, h, stackClear_eq_nil Memory.wf_nil nofun, ← h]

theorem read_groupClear_nil (n g a : Nat) : (groupClear n [] g).read a = 0 := by
  rw [read_groupClear Memory.wf_nil, Memory.read_nil, ite_self]

/-- Settles O60: no group number is valid, CLEAR_ALL finds nothing to clear or to send, and ADD_GROUP finds slot 0
free. -/
theorem afterResetOnlyAddGroupChangesTheTopology : Obligations.AfterResetOnlyAddGroupChangesTheTopology := by
  intro s hc himg hnum hcounts
  have hgroups : s.groups = 0 := by rw [State.groups, hnum]; rfl
  have hmax := hc.max_le
  obtain ⟨⟨⟨hslot, -⟩, -⟩, hlen, -⟩ := id hc
  obtain ⟨h000, h110, h111, -⟩ := reservedOpcodesAnswerErrOpcode s
  refine ⟨fun grp crd pos neg => ?_, ?_,
    List.forall_mem_cons.2 ⟨h000, List.forall_mem_cons.2 ⟨h110, List.forall_mem_singleton.2 h111⟩⟩,
    fun count hcount => exec_addGroup_errCapacity (.inr hcount), fun count hcount => ?_⟩
  · have hgrp : grp = 0 ∨ s.groups < grp := by omega
    exact ⟨exec_clearGroup_errGroup hgrp, exec_setChannel_errGroup crd pos neg hgrp, exec_readImage_errGroup crd hgrp⟩
  · exact ⟨_, exec_clearAll_of_img_nil himg, rfl, hnum, hcounts, himg, State.payload_of_groups_zero hgroups,
      State.registeredLatch_of_groups_zero hgroups⟩
  · refine ⟨_, exec_addGroup_valid hc (by omega) hcount, ?_, ?_, ?_, fun a => ?_⟩
    · rw [State.withNewGroup, hgroups, hcounts]
      rfl
    · rw [State.groups_withNewGroup count (by omega), hgroups]
    · rw [← hgroups]
      exact State.cards_withNewGroup_new (by omega) (by omega)
    · show (groupClear s.cfg.cMax s.img s.groups).read a = 0
      rw [himg, read_groupClear_nil]

end Sys2Proof.Machine
end
